-- ==== Sys2Proof/Word.lean ====
section
/-! DEFINITION. The word types of the block (00_scope.md section 5, "Types"). -/

namespace Sys2Proof

/-- A byte on the wire (20_memory.md R53). -/
abbrev Byte := BitVec 8

/-- `u16` / `s16`: the configuration word, a result word, a decoded code (10_state.md R20, R35). -/
abbrev Half := BitVec 16

/-- A command word (30_encoding.md R78) or a response value (10_state.md R33). -/
abbrev Word := BitVec 32

/-- A bus address (10_state.md R24). -/
abbrev BusAddr := BitVec 7

/-- A register address on the transport (20_memory.md R50). -/
abbrev RegAddr := BitVec 8

end Sys2Proof
end

