-- ==== Sys2Proof/Syntax.lean ====
section
/-! DEFINITION. The nineteen commands (30_encoding.md R80), one constructor per row of the opcode table. -/

namespace Sys2Proof

/-- The six fields of the configuration word (10_state.md R26; ids: 30_encoding.md R89). -/
inductive Field where
  | os
  | mux
  | fsr
  | mode
  | dr
  | rsvd
  deriving DecidableEq, Repr

/-- The commands with their operands (30_encoding.md R79 to R81). `wi` is the write-immediately flag. -/
inductive Instr where
  /-- `GETF f` (R102) -/
  | getf (f : Field)
  /-- `SETF f, v` (R103) -/
  | setf (f : Field) (v : Half)
  /-- `GETW` (R104) -/
  | getw
  /-- `SETW w` (R105) -/
  | setw (w : Half)
  /-- `BEGIN addr` (R120) -/
  | begin (addr : BusAddr)
  /-- `RESET` (R121) -/
  | reset
  /-- `RESTORE` (R122) -/
  | restore
  /-- `SETFSR g, wi` (R124) -/
  | setfsr (g : BitVec 3) (wi : Bool)
  /-- `SETMUX m, wi` (R125) -/
  | setmux (m : BitVec 3) (wi : Bool)
  /-- `SETMODE mode, wi` (R126) -/
  | setmode (mode : BitVec 1) (wi : Bool)
  /-- `SETRATE d, wi` (R127) -/
  | setrate (d : BitVec 3) (wi : Bool)
  /-- `RAWREAD` (R146) -/
  | rawread
  /-- `READCH ch` (R147) -/
  | readch (ch : BitVec 3)
  /-- `READFSR g` (R148) -/
  | readfsr (g : BitVec 3)
  /-- `READCHFSR ch, g` (R149) -/
  | readchfsr (ch g : BitVec 3)
  /-- `VREAD ch` (R165) -/
  | vread (ch : BitVec 3)
  /-- `VREADAR ch` (R181) -/
  | vreadar (ch : BitVec 3)
  /-- `GETFRV g` (R166) -/
  | getfrv (g : BitVec 3)
  /-- `GETRES g` (R167) -/
  | getres (g : BitVec 3)
  deriving DecidableEq, Repr

end Sys2Proof
end

