-- ==== Sys2Proof/WellFormed.lean ====
section
/-! DEFINITION. Which terms of `Instr` are legal commands: the extra checks of 30_encoding.md R83
that the operand widths do not already make. -/

namespace Sys2Proof

/-- R83 (c): SETF does not take RSVD; R83 (d): GETFRV and GETRES take 0..5.
(R83 (b), field ids 6 and 7, has no term: `Field` has six members.) -/
def Instr.wellFormed : Instr → Bool
  | .getf _ => true
  | .setf f _ => f != .rsvd
  | .getw => true
  | .setw _ => true
  | .begin _ => true
  | .reset => true
  | .restore => true
  | .setfsr _ _ => true
  | .setmux _ _ => true
  | .setmode _ _ => true
  | .setrate _ _ => true
  | .rawread => true
  | .readch _ => true
  | .readfsr _ => true
  | .readchfsr _ _ => true
  | .vread _ => true
  | .vreadar _ => true
  | .getfrv g => decide (g.toNat ≤ 5)
  | .getres g => decide (g.toNat ≤ 5)

end Sys2Proof
end

