-- ==== Sys2Proof/Decode.lean ====
section
/-! DEFINITION. The command decoder and encoder (30_encoding.md R78 to R83, R89, R92). -/

namespace Sys2Proof

/-- The rows of the opcode map (R80). -/
inductive Opcode where
  | getf | setf | getw | setw
  | begin | reset | restore
  | setfsr | setmux | setmode | setrate
  | rawread | readch | readfsr | readchfsr
  | vread | vreadar | getfrv | getres
  deriving DecidableEq, Repr

/-- Why a word is illegal (R83). -/
inductive Reject where
  /-- (a) `op` is none of the nineteen. -/
  | noSuchCommand
  /-- (a) a must-be-zero bit is set. -/
  | mustBeZeroBitSet
  /-- (b), (c) field id 6 or 7. -/
  | noSuchField
  /-- (c) SETF of RSVD. -/
  | reservedField
  /-- (d) GETFRV or GETRES of index 6 or 7. -/
  | noSuchRange
  deriving DecidableEq, Repr

/-- All rows, in the table's order. -/
def Opcode.all : List Opcode :=
  [.getf, .setf, .getw, .setw, .begin, .reset, .restore, .setfsr, .setmux, .setmode, .setrate,
   .rawread, .readch, .readfsr, .readchfsr, .vread, .vreadar, .getfrv, .getres]

/-- The column `match` of R82. -/
def Opcode.pattern : Opcode → Word
  | .getf => 0x01000000#32
  | .setf => 0x02000000#32
  | .getw => 0x03000000#32
  | .setw => 0x04000000#32
  | .begin => 0x10000000#32
  | .reset => 0x11000000#32
  | .restore => 0x12000000#32
  | .setfsr => 0x20000000#32
  | .setmux => 0x21000000#32
  | .setmode => 0x22000000#32
  | .setrate => 0x23000000#32
  | .rawread => 0x30000000#32
  | .readch => 0x31000000#32
  | .readfsr => 0x32000000#32
  | .readchfsr => 0x33000000#32
  | .vread => 0x40000000#32
  | .vreadar => 0x41000000#32
  | .getfrv => 0x42000000#32
  | .getres => 0x43000000#32

/-- The column `mask` of R82 (1 = the bit is fixed). -/
def Opcode.mask : Opcode → Word
  | .getf => 0xFFF8FFFF#32
  | .setf => 0xFFF80000#32
  | .getw => 0xFFFFFFFF#32
  | .setw => 0xFFFF0000#32
  | .begin => 0xFFFFFF80#32
  | .reset => 0xFFFFFFFF#32
  | .restore => 0xFFFFFFFF#32
  | .setfsr => 0xFFFEFFF8#32
  | .setmux => 0xFFFEFFF8#32
  | .setmode => 0xFFFEFFFE#32
  | .setrate => 0xFFFEFFF8#32
  | .rawread => 0xFFFFFFFF#32
  | .readch => 0xFFFFFFF8#32
  | .readfsr => 0xFFFFF8FF#32
  | .readchfsr => 0xFFFFF8F8#32
  | .vread => 0xFFFFFFF8#32
  | .vreadar => 0xFFFFFFF8#32
  | .getfrv => 0xFFFFF8FF#32
  | .getres => 0xFFFFF8FF#32

/-- The word `c` selects the command of this row (R82). -/
def Opcode.selects (o : Opcode) (c : Word) : Bool := c &&& o.mask == o.pattern

/-- The three parts of a command word (R78). -/
def opPart (c : Word) : BitVec 8 := c.extractLsb' 24 8
def aPart (c : Word) : BitVec 8 := c.extractLsb' 16 8
def immPart (c : Word) : BitVec 16 := c.extractLsb' 0 16

/-- A word from its three parts (R78). -/
def assemble (op a : BitVec 8) (imm : BitVec 16) : Word :=
  (op.setWidth 32 <<< 24) ||| (a.setWidth 32 <<< 16) ||| imm.setWidth 32

/-- The command an `op` byte names (R80). -/
def Opcode.ofByte (op : BitVec 8) : Option Opcode :=
  match op.toNat with
  | 0x01 => some .getf
  | 0x02 => some .setf
  | 0x03 => some .getw
  | 0x04 => some .setw
  | 0x10 => some .begin
  | 0x11 => some .reset
  | 0x12 => some .restore
  | 0x20 => some .setfsr
  | 0x21 => some .setmux
  | 0x22 => some .setmode
  | 0x23 => some .setrate
  | 0x30 => some .rawread
  | 0x31 => some .readch
  | 0x32 => some .readfsr
  | 0x33 => some .readchfsr
  | 0x40 => some .vread
  | 0x41 => some .vreadar
  | 0x42 => some .getfrv
  | 0x43 => some .getres
  | _ => none

/-- Field ids (R89). -/
def Field.ofId (f : BitVec 3) : Option Field :=
  match f.toNat with
  | 0 => some .os
  | 1 => some .mux
  | 2 => some .fsr
  | 3 => some .mode
  | 4 => some .dr
  | 5 => some .rsvd
  | _ => none

/-- Field ids (R89), the other way. -/
def Field.id : Field → BitVec 3
  | .os => 0#3
  | .mux => 1#3
  | .fsr => 2#3
  | .mode => 3#3
  | .dr => 4#3
  | .rsvd => 5#3

/-- The operands of the formats (R79, R81): `f` = a[2:0]. -/
def fOperand (c : Word) : BitVec 3 := (aPart c).extractLsb' 0 3
/-- `wi` = a[0]. -/
def wiOperand (c : Word) : Bool := (aPart c).getLsbD 0
/-- `addr` = imm[6:0]. -/
def addrOperand (c : Word) : BusAddr := (immPart c).extractLsb' 0 7
/-- `v` of format S and `ch` of format R = imm[2:0]. -/
def lowOperand (c : Word) : BitVec 3 := (immPart c).extractLsb' 0 3
/-- `mode` of SETMODE = imm[0]. -/
def modeOperand (c : Word) : BitVec 1 := (immPart c).extractLsb' 0 1
/-- `g` of format R = imm[10:8]. -/
def gOperand (c : Word) : BitVec 3 := (immPart c).extractLsb' 8 3

/-- R92 (ii), (iii): the operands of a word of this row, and the extra checks (b), (c), (d) of R83. -/
def Opcode.operands (o : Opcode) (c : Word) : Except Reject Instr :=
  match o with
  | .getf =>
    match Field.ofId (fOperand c) with
    | some f => .ok (.getf f)
    | none => .error .noSuchField
  | .setf =>
    match Field.ofId (fOperand c) with
    | some .rsvd => .error .reservedField
    | some f => .ok (.setf f (immPart c))
    | none => .error .noSuchField
  | .getw => .ok .getw
  | .setw => .ok (.setw (immPart c))
  | .begin => .ok (.begin (addrOperand c))
  | .reset => .ok .reset
  | .restore => .ok .restore
  | .setfsr => .ok (.setfsr (lowOperand c) (wiOperand c))
  | .setmux => .ok (.setmux (lowOperand c) (wiOperand c))
  | .setmode => .ok (.setmode (modeOperand c) (wiOperand c))
  | .setrate => .ok (.setrate (lowOperand c) (wiOperand c))
  | .rawread => .ok .rawread
  | .readch => .ok (.readch (lowOperand c))
  | .readfsr => .ok (.readfsr (gOperand c))
  | .readchfsr => .ok (.readchfsr (lowOperand c) (gOperand c))
  | .vread => .ok (.vread (lowOperand c))
  | .vreadar => .ok (.vreadar (lowOperand c))
  | .getfrv => if (gOperand c).toNat ≤ 5 then .ok (.getfrv (gOperand c)) else .error .noSuchRange
  | .getres => if (gOperand c).toNat ≤ 5 then .ok (.getres (gOperand c)) else .error .noSuchRange

/-- The decoder (R92): total on every word, rejecting by name. -/
def decode (c : Word) : Except Reject Instr :=
  match Opcode.ofByte (opPart c) with
  | none => .error .noSuchCommand
  | some o => if o.selects c then o.operands c else .error .mustBeZeroBitSet

/-- The row of a command (R80). -/
def Instr.opcode : Instr → Opcode
  | .getf _ => .getf
  | .setf _ _ => .setf
  | .getw => .getw
  | .setw _ => .setw
  | .begin _ => .begin
  | .reset => .reset
  | .restore => .restore
  | .setfsr _ _ => .setfsr
  | .setmux _ _ => .setmux
  | .setmode _ _ => .setmode
  | .setrate _ _ => .setrate
  | .rawread => .rawread
  | .readch _ => .readch
  | .readfsr _ => .readfsr
  | .readchfsr _ _ => .readchfsr
  | .vread _ => .vread
  | .vreadar _ => .vreadar
  | .getfrv _ => .getfrv
  | .getres _ => .getres

/-- `wi` in the `a` part (R79, format S). -/
def wiBits (wi : Bool) : BitVec 8 := if wi then 1#8 else 0#8

/-- `g` in the `imm` part (R79, format R): imm[10:8]. -/
def gBits (g : BitVec 3) : BitVec 16 := g.setWidth 16 <<< 8

/-- The word of a command (R79, R80): operands in their bits, every other bit 0. -/
def encode : Instr → Word
  | .getf f => assemble 0x01#8 (f.id.setWidth 8) 0#16
  | .setf f v => assemble 0x02#8 (f.id.setWidth 8) v
  | .getw => assemble 0x03#8 0#8 0#16
  | .setw w => assemble 0x04#8 0#8 w
  | .begin addr => assemble 0x10#8 0#8 (addr.setWidth 16)
  | .reset => assemble 0x11#8 0#8 0#16
  | .restore => assemble 0x12#8 0#8 0#16
  | .setfsr g wi => assemble 0x20#8 (wiBits wi) (g.setWidth 16)
  | .setmux m wi => assemble 0x21#8 (wiBits wi) (m.setWidth 16)
  | .setmode mode wi => assemble 0x22#8 (wiBits wi) (mode.setWidth 16)
  | .setrate d wi => assemble 0x23#8 (wiBits wi) (d.setWidth 16)
  | .rawread => assemble 0x30#8 0#8 0#16
  | .readch ch => assemble 0x31#8 0#8 (ch.setWidth 16)
  | .readfsr g => assemble 0x32#8 0#8 (gBits g)
  | .readchfsr ch g => assemble 0x33#8 0#8 (gBits g ||| ch.setWidth 16)
  | .vread ch => assemble 0x40#8 0#8 (ch.setWidth 16)
  | .vreadar ch => assemble 0x41#8 0#8 (ch.setWidth 16)
  | .getfrv g => assemble 0x42#8 0#8 (gBits g)
  | .getres g => assemble 0x43#8 0#8 (gBits g)

/-- The host's view of the decoder: an instruction of `nbits` bits given as a number. A command is
one 32-bit word (R78), so bits above the 32nd belong to no command. -/
def decodeTableWord (nbits w : Nat) : Option Instr :=
  if w % 2 ^ nbits < 2 ^ 32 then
    match decode (BitVec.ofNat 32 (w % 2 ^ nbits)) with
    | .ok i => some i
    | .error _ => none
  else none

end Sys2Proof
end

