-- ==== Sys2Proof/Config.lean ====
section
/-! DEFINITION. What is fixed for the block (00_scope.md R5, R6) and what the spec leaves open:
the open parameters and the free values are constants with no body, so nothing can be proved of
their values. -/

namespace Sys2Proof

/-- What the transport brings back for one read request: two bytes, first and second, or fewer
than two (20_memory.md R53, R57). -/
inductive Reply where
  /-- Two bytes came: `b0` first (the more significant), `b1` second. -/
  | two (b0 b1 : Byte)
  /-- A short read: fewer than two bytes were available. -/
  | short
  deriving DecidableEq, Repr, Inhabited

namespace Config

/-- `REG_CONV` (R5). -/
def regConv : RegAddr := 0x00#8
/-- `REG_CFG` (R5). -/
def regCfg : RegAddr := 0x01#8
/-- `CFG_DEFAULT` (R5). -/
def cfgDefault : Half := 0x8583#16
/-- `ADDR_DEFAULT` (R5). -/
def addrDefault : BusAddr := 0x48#7
/-- `TH_LOW` (R5). -/
def thLow : Int := 921
/-- `TH_HIGH` (R5). -/
def thHigh : Int := 1842
/-- `CODE_SAT` (R5). -/
def codeSat : Int := 2047
/-- `SETTLE_DELAY`, milliseconds (R6, R239). -/
def settleDelay : Nat := 10

/-- `AR_INIT` (R6, 92 D7): an open parameter of the block, each value in 0..5.
DESIGN CHOICE (log 1): held as an uninterpreted constant. Safe. -/
opaque arInit : Fin 4 → Fin 6

/-- `POLL_DELAY` in milliseconds (R6, R240): an open parameter, any value.
DESIGN CHOICE (log 7): held as an uninterpreted constant. Safe. -/
opaque pollDelay : Nat

/-- The device oracle (92 D27, 20_memory.md R59): the answer to the transport read of that index
when no answer is written down in the state. DESIGN CHOICE (log 3). Safe. -/
opaque deviceReply : Nat → Reply

/-- The microvolts VREAD delivers for the range codes 6 and 7, to which the spec gives no value
(43_voltage_scaler.md R162, 93 U1): a free value. DESIGN CHOICE (log 5). Safe. -/
opaque undefinedMicrovolts : Nat → Word

end Config
end Sys2Proof
end

