-- ==== Sys2Proof/Machine/State.lean ====
section
/-! DEFINITION. The state of the block (10_state.md), of its interfaces, and the state after reset
(10_state.md R40, 70_reset_and_hazards.md R220). -/

namespace Sys2Proof.Machine

/-- The response status (10_state.md R33). -/
inductive Status where
  /-- `ST_OK` = 0 -/
  | ok
  /-- `ST_ILLEGAL` = 1 -/
  | illegal
  deriving DecidableEq, Repr

/-- One externally visible event (00_scope.md section 5, "Event trace"). -/
inductive Event where
  /-- `W(addr, reg, v)` -/
  | write (addr : BusAddr) (reg : RegAddr) (v : Half)
  /-- `R(addr, reg) = v` -/
  | read (addr : BusAddr) (reg : RegAddr) (v : Half)
  /-- `D(ms)` -/
  | delay (ms : Nat)
  deriving DecidableEq, Repr

/-- What a read command does with the code once `REG_CONV` has been read. -/
inductive Resume where
  /-- RAWREAD, READCH, READFSR, READCHFSR: respond the code (R146 to R149). -/
  | code
  /-- VREAD: respond `Scale_uV(c, CFG.FSR)` (R165). -/
  | volt
  /-- VREADAR of channel `slot`, read at index `g`: steps A3 to A5 of R181. -/
  | auto (slot : Fin 4) (g : BitVec 3)
  deriving DecidableEq, Repr

/-- Which straight-line part of a command comes next while the phase is `P_EXEC`
(00_scope.md section 5: "rules use the labelled steps of the pseudocode"). -/
inductive ExecPoint where
  /-- The start of this command. VREADAR's `goto A1` (R181, A4) comes back here. -/
  | start (i : Instr)
  /-- BEGIN's read-back (R120). -/
  | readBack
  /-- The read of `REG_CONV` after a ready poll (R144, step 2). -/
  | readConv (k : Resume)
  deriving DecidableEq, Repr

/-- The sequencer phase (10_state.md R30, R31), with the place in the command's pseudocode
(DESIGN CHOICE, log 2). -/
inductive Phase where
  /-- `P_IDLE` -/
  | idle
  /-- `P_EXEC` -/
  | exec (p : ExecPoint)
  /-- `P_SETTLE` -/
  | settle
  /-- `P_POLL` -/
  | poll (k : Resume)
  /-- `P_POLLWAIT` -/
  | pollWait (k : Resume)
  deriving DecidableEq, Repr

/-- The state. The first seven fields are the spec's (10_state.md R20, R30, R33; the event trace);
the last four hold the inputs of the interfaces and the indexes of the free values
(log 3, log 4, log 5). -/
structure State where
  /-- `CFG`, the cached configuration word (R20, R21, R26). -/
  cfg : Half
  /-- `ADDR`, the device's bus address (R20, R24). -/
  addr : BusAddr
  /-- `AR[0..3]`, the auto-range gain indices (R20, R25). -/
  ar : Vector (BitVec 3) 4
  /-- The sequencer phase (R30, R31). -/
  phase : Phase
  /-- Response status (R33). -/
  status : Status
  /-- Response value (R33). -/
  value : Word
  /-- The event trace, oldest first (R40). -/
  trace : List Event
  /-- The words the host will offer at the command port, the one now offered first (R32). -/
  cmds : List Word
  /-- The device's answers to the coming transport reads, the next first (92 D27). -/
  replies : List Reply
  /-- How many transport reads were made: the index of the next free device answer. -/
  reads : Nat
  /-- How many undefined voltages were delivered: the index of the next one. -/
  frees : Nat
  deriving DecidableEq, Repr

/-- Reasons to stop with a fault: none. The block has no trap, and each of its abnormal conditions
is a response, a value or a hang (60_exceptions.md R190, R199). Nobody raises one. -/
inductive Fault where
  deriving DecidableEq, Repr

/-- Reasons to refuse an instruction. -/
inductive Refusal where
  /-- Raised by `exec` for an instruction that has no meaning yet; at present by none. Safe. -/
  | notModelled (mnemonic : String)
  deriving DecidableEq, Repr

/-- The block after its reset (R40, R220). `ar` is the open parameter `AR_INIT` (log 1); no word is
offered and no device answer is written down (log 3, log 4). -/
def State.reset : State where
  cfg := Config.cfgDefault
  addr := Config.addrDefault
  ar := Vector.ofFn fun i => BitVec.ofNat 3 (Config.arInit i).val
  phase := .idle
  status := .ok
  value := 0#32
  trace := []
  cmds := []
  replies := []
  reads := 0
  frees := 0

end Sys2Proof.Machine
end

