-- ==== Sys2Proof/Machine/Operands.lean ====
section
/-! DEFINITION. Fields of the configuration word, the channel map, the decoder of the result word
and the scaler: the values commands compute from their operands and from `CFG`. -/

namespace Sys2Proof.Machine

/-- `POS` of a field (10_state.md R26). -/
def fieldPos : Field → Nat
  | .os => 15
  | .mux => 12
  | .fsr => 9
  | .mode => 8
  | .dr => 5
  | .rsvd => 0

/-- Width of a field (10_state.md R26). -/
def fieldWidth : Field → Nat
  | .os => 1
  | .mux => 3
  | .fsr => 3
  | .mode => 1
  | .dr => 3
  | .rsvd => 5

/-- `MASK` of a field (10_state.md R26). -/
def fieldMask : Field → Half
  | .os => 0x8000#16
  | .mux => 0x7000#16
  | .fsr => 0x0E00#16
  | .mode => 0x0100#16
  | .dr => 0x00E0#16
  | .rsvd => 0x001F#16

/-- `GetField(F)` on a configuration word (40_config_register.md R101). -/
def getField (f : Field) (cfg : Half) : Half := (cfg &&& fieldMask f) >>> fieldPos f

/-- `SetField(F, v)` on a configuration word (R100): `v` is not masked, and bits shifted past
bit 15 are lost. -/
def setField (f : Field) (v cfg : Half) : Half :=
  (cfg &&& ~~~(fieldMask f)) ||| (v <<< fieldPos f)

/-- The field views of a configuration word (00_scope.md section 5, "Registers"). -/
def osOf (cfg : Half) : BitVec 1 := cfg.extractLsb' 15 1
def muxOf (cfg : Half) : BitVec 3 := cfg.extractLsb' 12 3
def fsrOf (cfg : Half) : BitVec 3 := cfg.extractLsb' 9 3
def modeOf (cfg : Half) : BitVec 1 := cfg.extractLsb' 8 1
def drOf (cfg : Half) : BitVec 3 := cfg.extractLsb' 5 3
def rsvdOf (cfg : Half) : BitVec 5 := cfg.extractLsb' 0 5

/-- `Pack` (30_encoding.md R71). -/
def pack (os : BitVec 1) (mux fsr : BitVec 3) (mode : BitVec 1) (dr : BitVec 3) (rsvd : BitVec 5) :
    Half :=
  (os.setWidth 16 <<< 15) ||| (mux.setWidth 16 <<< 12) ||| (fsr.setWidth 16 <<< 9) |||
    (mode.setWidth 16 <<< 8) ||| (dr.setWidth 16 <<< 5) ||| rsvd.setWidth 16

/-- The word with the rate bits ORed in (41_controller_setup.md R127). -/
def orRate (d : BitVec 3) (cfg : Half) : Half := cfg ||| (d.setWidth 16 <<< 5)

/-- `ChanToMux` (30_encoding.md R77). -/
def chanToMux (ch : BitVec 3) : BitVec 3 := if ch.toNat ≤ 3 then ch + 4#3 else ch - 4#3

/-- The auto-range slot of a channel: none above 3 (R165, R181: "channel restricted to 0–3"). -/
def autoSlot (ch : BitVec 3) : Option (Fin 4) :=
  if h : ch.toNat < 4 then some ⟨ch.toNat, h⟩ else none

/-- The channel of an auto-range slot. -/
def slotChannel (i : Fin 4) : BitVec 3 := BitVec.ofNat 3 i.val

/-- A 16-bit value as it crosses the wire, most significant byte first (20_memory.md R53). -/
def wireBytes (v : Half) : Byte × Byte := (v.extractLsb' 8 8, v.extractLsb' 0 8)

/-- What a transport read returns (R53; R57: 0 on a short read). -/
def wordOfReply : Reply → Half
  | .two b0 b1 => (b0.setWidth 16 <<< 8) ||| b1.setWidth 16
  | .short => 0#16

/-- `Decode12` (42_conversion.md R145). The result is read as an s16. -/
def decode12 (r : Half) : Half :=
  let t := r >>> 4
  if t.getLsbD 11 then t ||| 0xF000#16 else t &&& 0x0FFF#16

/-- `FullRange_mV` (43_voltage_scaler.md R160); no value for 6 and 7. -/
def fullRangeMV (g : BitVec 3) : Option Nat :=
  if g.toNat ≤ 5 then some (if g = 0#3 then 6144 else 8192 >>> g.toNat) else none

/-- `Lsb_uV` (R161), a lookup table; no value for 6 and 7. -/
def lsbUV (g : BitVec 3) : Option Nat :=
  match g.toNat with
  | 0 => some 3000
  | 1 => some 2000
  | 2 => some 1000
  | 3 => some 500
  | 4 => some 250
  | 5 => some 125
  | _ => none

/-- `Scale_uV` (R163) in exact integers; a partial function (R162). -/
def scaleUV (code : Half) (g : BitVec 3) : Option Int :=
  match fullRangeMV g, lsbUV g with
  | some fr, some lsb => some (code.toInt * ((fr : Int) * 1000 - (lsb : Int)) / 2047)
  | _, _ => none

end Sys2Proof.Machine
end

