-- ==== Sys2Proof/Machine/Flags.lean ====
section
/-! DEFINITION. The block has no condition codes (10_state.md R34). What it tests: the ready bit of
a poll read, and the comparator's thresholds. -/

namespace Sys2Proof.Machine

/-- The poll test: bit 15 of the value read, and nothing else of it (42_conversion.md R142). -/
def isReady (s : Half) : Bool := s.getLsbD 15

/-- `code <= 921`, signed (44_autorange.md R182). -/
def isLow (code : Half) : Bool := decide (code.toInt ≤ Config.thLow)

/-- `code >= 1842`, signed (R182). -/
def isHigh (code : Half) : Bool := decide (Config.thHigh ≤ code.toInt)

/-- `code = 2047` (R183). -/
def isSaturated (code : Half) : Bool := decide (code.toInt = Config.codeSat)

/-- Step A3 (R182): the new gain index, `none` when the index is left unchanged. -/
def comparator (code : Half) (g : BitVec 3) : Option (BitVec 3) :=
  if isLow code && decide (g.toNat < 5) then some (g + 1#3)
  else if isHigh code && decide (0 < g.toNat) then some (g - 1#3)
  else none

/-- Step A4 (R183): read again, tested on the index of the read that saturated. -/
def mustReread (code : Half) (g : BitVec 3) : Bool := isSaturated code && decide (0 < g.toNat)

/-- The bit of a response status (10_state.md R33). -/
def statusBit : Status → BitVec 1
  | .ok => 0#1
  | .illegal => 1#1

end Sys2Proof.Machine
end

