-- ==== Sys2Proof/Machine/Ops.lean ====
section
/-! DEFINITION. The shared operations: the transport, the response, the refusal of an illegal word,
the procedures of the spec (00_scope.md section 5, "Shared procedures") and the steps of the
sequencer's waiting phases. -/

namespace Sys2Proof.Machine

/-- The current fields are views of the cache (10_state.md R28). -/
def State.fsr (s : State) : BitVec 3 := fsrOf s.cfg
def State.mux (s : State) : BitVec 3 := muxOf s.cfg
def State.mode (s : State) : BitVec 1 := modeOf s.cfg

/-- Append one event (00_scope.md section 5). -/
def emit (e : Event) (s : State) : State := { s with trace := s.trace ++ [e] }

/-- `CFG <- v`. -/
def setCfg (v : Half) (s : State) : State := { s with cfg := v }

/-- `ADDR <- a`. -/
def setAddr (a : BusAddr) (s : State) : State := { s with addr := a }

/-- `AR[i] <- g`. -/
def setAr (i : Fin 4) (g : BitVec 3) (s : State) : State := { s with ar := s.ar.set i.val g i.isLt }

/-- `phase <- p`. -/
def setPhase (p : Phase) (s : State) : State := { s with phase := p }

/-! ## Transport and delay -/

/-- `MemWrite(reg, 2, v)` to bus address `ADDR`: its result is ignored (20_memory.md R58). -/
def memWrite (reg : RegAddr) (v : Half) (s : State) : State := emit (.write s.addr reg v) s

/-- The device's answer to the `n`-th coming transport read: written down in the state, or free
(92 D27; log 3). -/
def replyAt (s : State) (n : Nat) : Reply :=
  match s.replies[n]? with
  | some r => r
  | none => Config.deviceReply (s.reads + n)

/-- The value the `n`-th coming transport read returns (20_memory.md R57). -/
def readValueAt (s : State) (n : Nat) : Half := wordOfReply (replyAt s n)

/-- The value the next `MemRead` returns. -/
def readValue (s : State) : Half := readValueAt s 0

/-- The state after `MemRead(reg, 2)` from bus address `ADDR`: one answer is used up and the event
`R(ADDR, reg) = v` stands in the trace. -/
def memRead (reg : RegAddr) (s : State) : State :=
  { emit (.read s.addr reg (readValue s)) s with
    replies := s.replies.tail, reads := s.reads + 1 }

/-- `Delay(ms)`: an event and no other effect (60_exceptions.md R202). -/
def delay (ms : Nat) (s : State) : State := emit (.delay ms) s

/-! ## The response, and the refusal of an illegal command -/

/-- `respond(status, value)`: ends the command (00_scope.md section 5, 10_state.md R33). -/
def respond (st : Status) (v : Word) (s : State) : State :=
  { s with phase := .idle, status := st, value := v }

/-- `raise Illegal(c)` (60_exceptions.md R191): what stands in the place of taking an exception.
There is no return from it: the next command is taken normally (R200). -/
def raiseIllegal (s : State) : State := respond .illegal 0#32 s

/-- Respond a number of microvolts, or a free value where the scaler has none
(43_voltage_scaler.md R162, R163; log 5). -/
def respondScaled (code : Half) (g : BitVec 3) (s : State) : State :=
  match scaleUV code g with
  | some v => respond .ok (BitVec.ofInt 32 v) s
  | none => { respond .ok (Config.undefinedMicrovolts s.frees) s with frees := s.frees + 1 }

/-! ## The command port -/

/-- The word now at the command port (10_state.md R32). -/
def offeredWord (s : State) : Option Word := s.cmds.head?

/-- The word at the port is taken. -/
def takeWord (s : State) : State := { s with cmds := s.cmds.tail }

/-- A legal word is taken: `P_IDLE` to `P_EXEC` (R30). -/
def acceptCommand (i : Instr) (s : State) : State := setPhase (.exec (.start i)) (takeWord s)

/-- An illegal word is taken and refused (R30, 60_exceptions.md R191). -/
def refuseWord (s : State) : State := raiseIllegal (takeWord s)

/-! ## Procedures of 41_controller_setup.md -/

/-- `WriteCfg()` (R123). -/
def writeCfg (s : State) : State := memWrite Config.regCfg s.cfg s

/-- The write of a setter: only when `wi` is 1. -/
def writeIf (wi : Bool) (s : State) : State := if wi then writeCfg s else s

/-- `Reset()` (R128). -/
def resetCfg (s : State) : State := writeCfg (setCfg Config.cfgDefault s)

/-- `SetFsr(g, wi)` (R124). -/
def setFsr (g : BitVec 3) (wi : Bool) (s : State) : State :=
  if g = s.fsr then s else writeIf wi (setCfg (setField .fsr (g.setWidth 16) s.cfg) s)

/-- `SetMux(m, wi)` (R125). -/
def setMux (m : BitVec 3) (wi : Bool) (s : State) : State :=
  if m = s.mux then s else writeIf wi (setCfg (setField .mux (m.setWidth 16) s.cfg) s)

/-- `SetMode(mode, wi)` (R126). -/
def setMode (mode : BitVec 1) (wi : Bool) (s : State) : State :=
  writeIf wi (setCfg (setField .mode (mode.setWidth 16) s.cfg) s)

/-- `SetRate(d, wi)` (R127). -/
def setRate (d : BitVec 3) (wi : Bool) (s : State) : State :=
  writeIf wi (setCfg (orRate d s.cfg) s)

/-- BEGIN up to its settle delay (R120). -/
def beginAt (addr : BusAddr) (s : State) : State :=
  setPhase .settle (resetCfg (setAddr addr s))

/-- `P_SETTLE`: BEGIN's settle delay (R120; 10_state.md R30). The event is appended by the step that
leaves the phase (DESIGN CHOICE, log 9). -/
def settleStep (s : State) : State :=
  setPhase (.exec .readBack) (delay Config.settleDelay s)

/-- BEGIN's read-back and response (R120). -/
def readBackStep (s : State) : State :=
  respond .ok (if readValue s = Config.cfgDefault then 1#32 else 0#32) (memRead Config.regCfg s)

/-! ## Procedures of 42_conversion.md and 44_autorange.md -/

/-- Step A3 of VREADAR (44_autorange.md R181, R182). -/
def adjustRange (slot : Fin 4) (code : Half) (g : BitVec 3) (s : State) : State :=
  match comparator code g with
  | some g' => setAr slot g' s
  | none => s

/-- Steps A3 to A5 of VREADAR (R181). `goto A1` is the start of the command again: its test A0
lets a slot's own channel through (DEDUCED, log 8). -/
def finishAuto (slot : Fin 4) (code : Half) (g : BitVec 3) (s : State) : State :=
  if mustReread code g then
    setPhase (.exec (.start (.vreadar (slotChannel slot)))) (adjustRange slot code g s)
  else respondScaled code g (adjustRange slot code g s)

/-- What a read command does with its code (R146 to R149, R165, R181). -/
def finishRead (k : Resume) (code : Half) (s : State) : State :=
  match k with
  | .code => respond .ok (code.signExtend 32) s
  | .volt => respondScaled code s.fsr s
  | .auto slot g => finishAuto slot code g s

/-- Steps 2 to 4 of `RawRead` (42_conversion.md R144): read `REG_CONV`, decode, go on. -/
def readConvStep (k : Resume) (s : State) : State :=
  finishRead k (decode12 (readValue s)) (memRead Config.regConv s)

/-- `TriggerAndWait`, T1 and T2 (R141, R142): then the first poll read is due. -/
def trigger (k : Resume) (s : State) : State :=
  setPhase (.poll k) (writeCfg (setCfg (setField .os 1#16 s.cfg) s))

/-- `TriggerAndWait`, T3 and T4 (R142). -/
def pollStep (k : Resume) (s : State) : State :=
  if isReady (readValue s) then setPhase (.exec (.readConv k)) (memRead Config.regCfg s)
  else setPhase (.pollWait k) (memRead Config.regCfg s)

/-- `TriggerAndWait`, T5 and T6 (R142; log 9). -/
def pollDelayStep (k : Resume) (s : State) : State :=
  setPhase (.poll k) (delay Config.pollDelay s)

/-- `RawRead()` (R140, R144): trigger and poll in single-shot mode only. -/
def rawRead (k : Resume) (s : State) : State :=
  if s.mode = 1#1 then trigger k s else readConvStep k s

/-- The write-immediately flag of the read overloads: 1 in continuous mode (R147, R148). -/
def writeNow (s : State) : Bool := s.mode == 0#1

/-- `ReadCh(ch)` (R147). -/
def readCh (ch : BitVec 3) (k : Resume) (s : State) : State :=
  rawRead k (setMux (chanToMux ch) (writeNow s) s)

/-- `ReadFsr(g)` (R148). -/
def readFsr (g : BitVec 3) (k : Resume) (s : State) : State :=
  rawRead k (setFsr g (writeNow s) s)

/-- `ReadChFsr(ch, g)` (R149): the range first, never written at once. -/
def readChFsr (ch g : BitVec 3) (k : Resume) (s : State) : State :=
  readCh ch k (setFsr g false s)

/-- Steps A1 and A2 of VREADAR (44_autorange.md R181). -/
def autoPass (slot : Fin 4) (s : State) : State :=
  readChFsr (slotChannel slot) s.ar[slot] (.auto slot s.ar[slot]) s

/-- The response of a table command (43_voltage_scaler.md R166, R167): illegal where the table has
no entry. -/
def respondTable (entry : Option Nat) (s : State) : State :=
  match entry with
  | some n => respond .ok (BitVec.ofNat 32 n) s
  | none => raiseIllegal s

end Sys2Proof.Machine
end

