-- ==== Sys2Proof/Machine/Autorange.lean ====
section
/-! DEFINITION. VREADAR (44_autorange.md). -/

namespace Sys2Proof.Machine

/-- VREADAR ch (R181): step A0, then the first pass. -/
def execVreadar (ch : BitVec 3) (s : State) : Host.Outcome State Fault Refusal :=
  .next (match autoSlot ch with
    | none => respond .ok 0#32 s
    | some slot => autoPass slot s)

end Sys2Proof.Machine
end

