-- ==== Sys2Proof/Machine/ConfigRegister.lean ====
section
/-! DEFINITION. GETF, SETF, GETW, SETW (40_config_register.md). -/

namespace Sys2Proof.Machine

/-- GETF f (R102). -/
def execGetf (f : Field) (s : State) : Host.Outcome State Fault Refusal :=
  .next (respond .ok ((getField f s.cfg).setWidth 32) s)

/-- SETF f, v (R103): RSVD is illegal. -/
def execSetf (f : Field) (v : Half) (s : State) : Host.Outcome State Fault Refusal :=
  .next (if f = .rsvd then raiseIllegal s else respond .ok 0#32 (setCfg (setField f v s.cfg) s))

/-- GETW (R104). -/
def execGetw (s : State) : Host.Outcome State Fault Refusal :=
  .next (respond .ok (s.cfg.setWidth 32) s)

/-- SETW w (R105). -/
def execSetw (w : Half) (s : State) : Host.Outcome State Fault Refusal :=
  .next (respond .ok 0#32 (setCfg w s))

end Sys2Proof.Machine
end

