-- ==== Sys2Proof/Machine/ControllerSetup.lean ====
section
/-! DEFINITION. BEGIN, RESET, RESTORE, SETFSR, SETMUX, SETMODE, SETRATE (41_controller_setup.md). -/

namespace Sys2Proof.Machine

/-- BEGIN addr (R120): the rest of it runs in `P_SETTLE` and after. -/
def execBegin (addr : BusAddr) (s : State) : Host.Outcome State Fault Refusal :=
  .next (beginAt addr s)

/-- RESET (R121). -/
def execReset (s : State) : Host.Outcome State Fault Refusal :=
  .next (respond .ok 0#32 (resetCfg s))

/-- RESTORE (R122): the mask is applied to the transmitted word only. -/
def execRestore (s : State) : Host.Outcome State Fault Refusal :=
  .next (respond .ok 0#32 (memWrite Config.regCfg (s.cfg &&& 0x7FFF#16) s))

/-- SETFSR g, wi (R124). -/
def execSetfsr (g : BitVec 3) (wi : Bool) (s : State) : Host.Outcome State Fault Refusal :=
  .next (respond .ok 0#32 (setFsr g wi s))

/-- SETMUX m, wi (R125). -/
def execSetmux (m : BitVec 3) (wi : Bool) (s : State) : Host.Outcome State Fault Refusal :=
  .next (respond .ok 0#32 (setMux m wi s))

/-- SETMODE mode, wi (R126). -/
def execSetmode (mode : BitVec 1) (wi : Bool) (s : State) : Host.Outcome State Fault Refusal :=
  .next (respond .ok 0#32 (setMode mode wi s))

/-- SETRATE d, wi (R127). -/
def execSetrate (d : BitVec 3) (wi : Bool) (s : State) : Host.Outcome State Fault Refusal :=
  .next (respond .ok 0#32 (setRate d wi s))

end Sys2Proof.Machine
end

