-- ==== Sys2Proof/Machine/Conversion.lean ====
section
/-! DEFINITION. RAWREAD, READCH, READFSR, READCHFSR (42_conversion.md). In single-shot mode the
meaning goes as far as the trigger write; the polls and the read of `REG_CONV` are steps of the
waiting phases. -/

namespace Sys2Proof.Machine

/-- RAWREAD (R146). -/
def execRawread (s : State) : Host.Outcome State Fault Refusal :=
  .next (rawRead .code s)

/-- READCH ch (R147). -/
def execReadch (ch : BitVec 3) (s : State) : Host.Outcome State Fault Refusal :=
  .next (readCh ch .code s)

/-- READFSR g (R148). -/
def execReadfsr (g : BitVec 3) (s : State) : Host.Outcome State Fault Refusal :=
  .next (readFsr g .code s)

/-- READCHFSR ch, g (R149). -/
def execReadchfsr (ch g : BitVec 3) (s : State) : Host.Outcome State Fault Refusal :=
  .next (readChFsr ch g .code s)

end Sys2Proof.Machine
end

