-- ==== Sys2Proof/Machine/VoltageScaler.lean ====
section
/-! DEFINITION. VREAD, GETFRV, GETRES (43_voltage_scaler.md). -/

namespace Sys2Proof.Machine

/-- VREAD ch (R165): a channel above 3 responds 0 and does nothing else. -/
def execVread (ch : BitVec 3) (s : State) : Host.Outcome State Fault Refusal :=
  .next (match autoSlot ch with
    | none => respond .ok 0#32 s
    | some _ => readCh ch .volt s)

/-- GETFRV g (R166). -/
def execGetfrv (g : BitVec 3) (s : State) : Host.Outcome State Fault Refusal :=
  .next (respondTable (fullRangeMV g) s)

/-- GETRES g (R167). -/
def execGetres (g : BitVec 3) (s : State) : Host.Outcome State Fault Refusal :=
  .next (respondTable (lsbUV g) s)

end Sys2Proof.Machine
end

