-- ==== Sys2Proof/Machine/Dispatch.lean ====
section
/-! DEFINITION. One arm per command. -/

namespace Sys2Proof.Machine

def exec (i : Instr) (s : State) : Host.Outcome State Fault Refusal :=
  match i with
  | .getf f => Sys2Proof.Machine.execGetf f s
  | .setf f v => Sys2Proof.Machine.execSetf f v s
  | .getw => Sys2Proof.Machine.execGetw s
  | .setw w => Sys2Proof.Machine.execSetw w s
  | .begin addr => Sys2Proof.Machine.execBegin addr s
  | .reset => Sys2Proof.Machine.execReset s
  | .restore => Sys2Proof.Machine.execRestore s
  | .setfsr g wi => Sys2Proof.Machine.execSetfsr g wi s
  | .setmux m wi => Sys2Proof.Machine.execSetmux m wi s
  | .setmode mode wi => Sys2Proof.Machine.execSetmode mode wi s
  | .setrate d wi => Sys2Proof.Machine.execSetrate d wi s
  | .rawread => Sys2Proof.Machine.execRawread s
  | .readch ch => Sys2Proof.Machine.execReadch ch s
  | .readfsr g => Sys2Proof.Machine.execReadfsr g s
  | .readchfsr ch g => Sys2Proof.Machine.execReadchfsr ch g s
  | .vread ch => Sys2Proof.Machine.execVread ch s
  | .vreadar ch => Sys2Proof.Machine.execVreadar ch s
  | .getfrv g => Sys2Proof.Machine.execGetfrv g s
  | .getres g => Sys2Proof.Machine.execGetres g s

end Sys2Proof.Machine
end

