-- ==== Sys2Proof/Machine/Step.lean ====
section
/-! DEFINITION. One step of the sequencer (10_state.md R30, R31), and how the host's word gets to
the command port. -/

namespace Sys2Proof.Machine

/-- In `P_IDLE` the word at the command port is taken and its command started, or refused; with no
word offered the block waits (70_reset_and_hazards.md R221). In every other phase the command in
progress goes on and no word is taken (10_state.md R32). -/
def step (s : State) : Host.Outcome State Fault Refusal :=
  match s.phase with
  | .idle =>
    match offeredWord s with
    | none => .next s
    | some c =>
      match decode c with
      | .error _ => .next (refuseWord s)
      | .ok i => exec i (acceptCommand i s)
  | .exec (.start i) => exec i s
  | .exec .readBack => .next (readBackStep s)
  | .exec (.readConv k) => .next (readConvStep k s)
  | .settle => .next (settleStep s)
  | .poll k => .next (pollStep k s)
  | .pollWait k => .next (pollDelayStep k s)

/-- `s` with this word offered at the command port of an idle block, before any other word (log 4). -/
def State.withFetchWord (s : State) (nbits w : Nat) : State :=
  { s with phase := .idle, cmds := BitVec.ofNat 32 (w % 2 ^ nbits) :: s.cmds }

end Sys2Proof.Machine
end

