-- ==== Sys2Proof/Safety.lean ====
section
/-! DEFINITION. The terms claims are stated in: runs, the events that are configuration writes, and
the invariant of the block. No step stops, so a run is unsafe only by what its states hold. -/

namespace Sys2Proof.Machine

/-- `t` is the state after `k` steps from `s`, each of which answered a next state. -/
def Reaches : Nat → State → State → Prop
  | 0, s, t => s = t
  | k + 1, s, t => ∃ u, step s = .next u ∧ Reaches k u t

/-- One configuration write updates what the device was last sent. -/
def noteSent (last : Option (BusAddr × Half)) (e : Event) : Option (BusAddr × Half) :=
  match e with
  | .write a r v => if r = Config.regCfg then some (a, v) else last
  | .read _ _ _ => last
  | .delay _ => last

/-- The last configuration write in a trace: the address and the word sent. The difference between
`CFG` and this word is the pending change of 10_state.md R37, R38. -/
def lastSent (trace : List Event) : Option (BusAddr × Half) := trace.foldl noteSent none

/-- The events a command may cause (20_memory.md R51, R52): configuration writes, reads of the two
registers, the two delays. -/
def eventLegal (e : Event) : Bool :=
  match e with
  | .write _ r _ => r == Config.regCfg
  | .read _ r _ => r == Config.regCfg || r == Config.regConv
  | .delay ms => ms == Config.settleDelay || ms == Config.pollDelay

/-- Every gain index is in 0..5 (10_state.md R25, 44_autorange.md R186). -/
def arLegal (s : State) : Prop := ∀ i : Fin 4, s.ar[i].toNat ≤ 5

/-- The device was sent exactly the cache, at the address the block talks to. -/
def cacheSent (s : State) : Prop := lastSent s.trace = some (s.addr, s.cfg)

/-- What holds while a read command of single-shot mode is under way: the start bit is set, the
mode is single-shot, the whole cache was sent (42_conversion.md R141), and the command's own
multiplexer and range selections stand in the cache (R147, R149; 44_autorange.md R181, R184). -/
def readUnderWay (k : Resume) (s : State) : Prop :=
  osOf s.cfg = 1#1 ∧ modeOf s.cfg = 1#1 ∧ cacheSent s ∧
    match k with
    | .code => True
    | .volt => 4 ≤ (muxOf s.cfg).toNat
    | .auto slot g =>
      muxOf s.cfg = chanToMux (slotChannel slot) ∧ fsrOf s.cfg = g ∧ s.ar[slot] = g

/-- What holds in each phase. -/
def phaseInv (s : State) : Prop :=
  match s.phase with
  | .idle => True
  | .settle => s.cfg = Config.cfgDefault ∧ cacheSent s
  | .exec .readBack => s.cfg = Config.cfgDefault ∧ cacheSent s
  | .exec (.start i) => ∃ slot : Fin 4, i = .vreadar (slotChannel slot)
  | .exec (.readConv k) => readUnderWay k s
  | .poll k => readUnderWay k s
  | .pollWait k => readUnderWay k s

/-! ## What the statements say a command leaves -/

/-- The rows of 30_encoding.md R82, `match` and `mask`, as the spec prints them. -/
def commandRows : List (Word × Word) :=
  [(0x01000000#32, 0xFFF8FFFF#32), (0x02000000#32, 0xFFF80000#32), (0x03000000#32, 0xFFFFFFFF#32),
   (0x04000000#32, 0xFFFF0000#32), (0x10000000#32, 0xFFFFFF80#32), (0x11000000#32, 0xFFFFFFFF#32),
   (0x12000000#32, 0xFFFFFFFF#32)] ++
  [(0x20000000#32, 0xFFFEFFF8#32), (0x21000000#32, 0xFFFEFFF8#32), (0x22000000#32, 0xFFFEFFFE#32),
   (0x23000000#32, 0xFFFEFFF8#32), (0x30000000#32, 0xFFFFFFFF#32), (0x31000000#32, 0xFFFFFFF8#32),
   (0x32000000#32, 0xFFFFF8FF#32), (0x33000000#32, 0xFFFFF8F8#32)] ++
  [(0x40000000#32, 0xFFFFFFF8#32), (0x41000000#32, 0xFFFFFFF8#32), (0x42000000#32, 0xFFFFF8FF#32),
   (0x43000000#32, 0xFFFFF8FF#32)]

/-- `s` with the response (status, value) given and the block idle again (10_state.md R33). -/
def responded (st : Status) (v : Word) (s : State) : State :=
  { s with phase := .idle, status := st, value := v }

/-- `s` after one configuration write of the word `w` (20_memory.md R51). -/
def configWritten (w : Half) (s : State) : State :=
  { s with trace := s.trace ++ [.write s.addr 0x01#8 w] }

/-- `s` after the trigger of a read of multiplexer code `m` at range `g` in single-shot mode: one
write of the whole cache with the start bit set, and a poll read due (42_conversion.md R141). -/
def triggered (k : Resume) (m g : BitVec 3) (s : State) : State :=
  let w := pack 1#1 m g 1#1 (drOf s.cfg) (rsvdOf s.cfg)
  { s with cfg := w, trace := s.trace ++ [.write s.addr 0x01#8 w], phase := .poll k }

/-- `s` after the sample of a read of multiplexer code `m` at range `g` in continuous mode: a
configuration write where `wrote`, then one read of `REG_CONV` (42_conversion.md R140). -/
def sampled (wrote : Bool) (m g : BitVec 3) (s : State) : State :=
  let w := pack (osOf s.cfg) m g 0#1 (drOf s.cfg) (rsvdOf s.cfg)
  { s with
    cfg := w
    trace := s.trace ++ (if wrote then [.write s.addr 0x01#8 w] else []) ++
      [.read s.addr 0x00#8 (readValue s)]
    replies := s.replies.tail
    reads := s.reads + 1 }

/-- The code in a result word: its upper twelve bits, signed (42_conversion.md R145). -/
def codeOf (r : Half) : Int := r.toInt / 16

/-- The table of 44_autorange.md R182: the index kept after a read of `code` at index `g`. -/
def nextIndex (code : Int) (g : BitVec 3) : BitVec 3 :=
  if code ≤ 921 ∧ g.toNat < 5 then g + 1#3
  else if 1842 ≤ code ∧ 0 < g.toNat then g - 1#3
  else g

/-- The microvolts of a code at a range of 0..5 (43_voltage_scaler.md R161, R163). -/
def microvolts (code : Int) (g : BitVec 3) : Word :=
  BitVec.ofInt 32 (code * (([3000, 2000, 1000, 500, 250, 125].getD g.toNat 0 : Nat) : Int))

/-- The events of the first `n` poll reads when none of them finds the device ready: a read of
`REG_CFG` and a delay each (42_conversion.md R142). -/
def pollEvents (s : State) : Nat → List Event
  | 0 => []
  | n + 1 => pollEvents s n ++
      [.read s.addr 0x01#8 (readValueAt s n), .delay Config.pollDelay]

/-- The commands that read a raw code, with the multiplexer code and range they read at
(42_conversion.md R146 to R149). -/
def readSelection (i : Instr) (cfg : Half) : Option (BitVec 3 × BitVec 3) :=
  match i with
  | .rawread => some (muxOf cfg, fsrOf cfg)
  | .readch ch => some (ch ^^^ 4#3, fsrOf cfg)
  | .readfsr g => some (muxOf cfg, g)
  | .readchfsr ch g => some (ch ^^^ 4#3, g)
  | _ => none

/-- Mask and position of a field as the spec's table prints them (10_state.md R26). -/
def specMask : Field → Half × Nat
  | .os => (0x8000#16, 15)
  | .mux => (0x7000#16, 12)
  | .fsr => (0x0E00#16, 9)
  | .mode => (0x0100#16, 8)
  | .dr => (0x00E0#16, 5)
  | .rsvd => (0x001F#16, 0)

/-- The five phases without the place in the pseudocode (10_state.md R30): `P_IDLE` 0, `P_EXEC` 1,
`P_SETTLE` 2, `P_POLL` 3, `P_POLLWAIT` 4. -/
def phaseName : Phase → Nat
  | .idle => 0
  | .exec _ => 1
  | .settle => 2
  | .poll _ => 3
  | .pollWait _ => 4

/-- The invariant of the block. -/
structure Inv (s : State) : Prop where
  ar : arLegal s
  trace : ∀ e ∈ s.trace, eventLegal e = true
  phase : phaseInv s

end Sys2Proof.Machine
end

