-- ==== Sys2Proof/Certificates/Slice0/Obligations.lean ====
section
/-! DEFINITION. The statements for the provers. -/

open Sys2Proof Sys2Proof.Machine

/-! ## Encoding -/

/-- 30_encoding.md R79 to R82, R92: every well-formed command, with every operand value its bits
admit, is what the decoder reads from its word. -/
def Obligations.DecodeOfEncodeIsTheCommand : Prop :=
  ∀ i : Instr, i.wellFormed = true → decode (encode i) = .ok i

/-- 30_encoding.md R82, R83: a word the decoder accepts is the one word of a well-formed command. -/
def Obligations.EncodeOfDecodeIsTheWord : Prop :=
  ∀ (c : Word) (i : Instr), decode c = .ok i → i.wellFormed = true ∧ encode i = c

/-- 30_encoding.md R83: exactly the words of (a) to (d) are illegal, and an idle block refuses one
with (`ST_ILLEGAL`, 0), no register changed, no event. -/
def Obligations.IllegalWordsAreRefused : Prop :=
  (∀ c : Word, (∃ r, decode c = .error r) ↔
    (∀ p ∈ commandRows, c &&& p.2 ≠ p.1) ∨
    (c &&& 0xFFF8FFFF#32 = 0x01000000#32 ∧ 6 ≤ (c.extractLsb' 16 3).toNat) ∨
    (c &&& 0xFFF80000#32 = 0x02000000#32 ∧ 5 ≤ (c.extractLsb' 16 3).toNat) ∨
    ((c &&& 0xFFFFF8FF#32 = 0x42000000#32 ∨ c &&& 0xFFFFF8FF#32 = 0x43000000#32) ∧
      6 ≤ (c.extractLsb' 8 3).toNat)) ∧
  (∃ r, decode 0x00000000#32 = .error r) ∧ (∃ r, decode 0xFFFFFFFF#32 = .error r) ∧
  ∀ (s : State) (c : Word) (rest : List Word) (r : Reject), s.phase = .idle → s.cmds = c :: rest →
    decode c = .error r →
    step s = .next { s with cmds := rest, phase := .idle, status := .illegal, value := 0#32 }

/-- 30_encoding.md R82: the rows the decoder uses are the spec's, no two of them select the same
word, and the row that selects a word is the one the decoder reads its operands by. -/
def Obligations.NoTwoRowsMatchOneWord : Prop :=
  (∀ (o o' : Opcode) (c : Word), o.selects c = true → o'.selects c = true → o = o') ∧
  (Opcode.all.map fun o => (o.pattern, o.mask)) = commandRows ∧
  ∀ (o : Opcode) (c : Word), o.selects c = true → decode c = o.operands c

/-- 30_encoding.md R91: the worked encodings. -/
def Obligations.WorkedEncodingsDecode : Prop :=
  decode 0x02010004#32 = .ok (.setf .mux 4#16) ∧
  decode 0x20000001#32 = .ok (.setfsr 1#3 false) ∧
  decode 0x20010001#32 = .ok (.setfsr 1#3 true) ∧
  decode 0x10000048#32 = .ok (.begin 0x48#7) ∧
  decode 0x33000402#32 = .ok (.readchfsr 2#3 4#3) ∧
  decode 0x41000002#32 = .ok (.vreadar 2#3) ∧
  decode 0x43000500#32 = .ok (.getres 5#3) ∧
  decode 0x04008583#32 = .ok (.setw 0x8583#16) ∧
  decode 0x31000008#32 = .error .mustBeZeroBitSet

/-! ## The step -/

/-- 10_state.md R30, R32: an idle block takes the word at the command port and runs its command,
in `P_EXEC`, with the word gone from the port. -/
def Obligations.StepRunsTheDecodedCommand : Prop :=
  ∀ (s : State) (c : Word) (rest : List Word) (i : Instr), s.phase = .idle → s.cmds = c :: rest →
    decode c = .ok i → step s = exec i { s with cmds := rest, phase := .exec (.start i) }

/-- 70_reset_and_hazards.md R221: with no word at the port the idle block waits. -/
def Obligations.IdleBlockWaitsForAWord : Prop :=
  ∀ s : State, s.phase = .idle → s.cmds = [] → step s = .next s

/-- 60_exceptions.md R190, R199: nothing stops the block. Every command and every step answers a
next state. -/
def Obligations.NoStepStops : Prop :=
  (∀ (i : Instr) (s : State), ∃ t, exec i s = .next t) ∧ ∀ s : State, ∃ t, step s = .next t

/-- 10_state.md R32: a word offered while a command is in progress is not taken and has no effect:
a step of a busy block does the same whatever is offered, and leaves what is offered. -/
def Obligations.BusyBlockIgnoresTheCommandPort : Prop :=
  ∀ (s t : State) (ws : List Word), s.phase ≠ .idle → step s = .next t →
    t.cmds = s.cmds ∧ step { s with cmds := ws } = .next { t with cmds := ws }

/-- 10_state.md R30, R31: where the phase can go. `P_IDLE` goes through `P_EXEC` within one step
(log 2), so it can reach whatever `P_EXEC` leads to. -/
def Obligations.PhaseFollowsTheTable : Prop :=
  ∀ s t : State, step s = .next t →
    (phaseName s.phase, phaseName t.phase) ∈
      [(0, 0), (0, 1), (0, 2), (0, 3), (1, 0), (1, 1), (1, 2), (1, 3), (2, 1), (3, 1), (3, 4), (4, 3)]
    ∧ ∀ k, s.phase = .poll k → (phaseName t.phase = 1 ↔ (readValue s).getLsbD 15 = true)

/-- The invariant `Inv`: gain indices in 0..5, only legal events, and in each waiting phase the
cache sent to the device with the start bit set (10_state.md R25, 20_memory.md R51,
42_conversion.md R141, 44_autorange.md R186). -/
def Obligations.StepKeepsTheInvariant : Prop :=
  ∀ s t : State, Inv s → step s = .next t → Inv t

/-- `Inv` holds after reset. -/
def Obligations.ResetMeetsTheInvariant : Prop := Inv State.reset

/-- 10_state.md R40: the state after reset. -/
def Obligations.ResetLeavesTheStatedValues : Prop :=
  State.reset.cfg = 0x8583#16 ∧ State.reset.addr = 0x48#7 ∧
  (∀ i : Fin 4, State.reset.ar[i].toNat = (Config.arInit i).val ∧ State.reset.ar[i].toNat ≤ 5) ∧
  State.reset.phase = .idle ∧ State.reset.status = .ok ∧ State.reset.value = 0#32 ∧
  State.reset.trace = []

/-! ## 40_config_register.md -/

/-- 40_config_register.md R101, R102: GETF responds the field of the cache, by its bits
(10_state.md R26), and changes nothing but the response. -/
def Obligations.GetfRespondsTheField : Prop :=
  ∀ s : State,
    exec (.getf .os) s = .next (responded .ok ((s.cfg.extractLsb' 15 1).setWidth 32) s) ∧
    exec (.getf .mux) s = .next (responded .ok ((s.cfg.extractLsb' 12 3).setWidth 32) s) ∧
    exec (.getf .fsr) s = .next (responded .ok ((s.cfg.extractLsb' 9 3).setWidth 32) s) ∧
    exec (.getf .mode) s = .next (responded .ok ((s.cfg.extractLsb' 8 1).setWidth 32) s) ∧
    exec (.getf .dr) s = .next (responded .ok ((s.cfg.extractLsb' 5 3).setWidth 32) s) ∧
    exec (.getf .rsvd) s = .next (responded .ok ((s.cfg.extractLsb' 0 5).setWidth 32) s)

/-- 40_config_register.md R100, R103: SETF clears the field and ORs the shifted value in, unmasked,
whatever the value; it changes nothing else but the response, and refuses RSVD. -/
def Obligations.SetfAppliesTheFieldFormula : Prop :=
  ∀ (v : Half) (s : State),
    (∀ f : Field, f ≠ .rsvd → exec (.setf f v) s = .next (responded .ok 0#32
      { s with cfg := (s.cfg &&& ~~~(specMask f).1) |||
          BitVec.ofNat 16 (v.toNat * 2 ^ (specMask f).2) })) ∧
    exec (.setf .rsvd v) s = .next (responded .illegal 0#32 s)

/-- 40_config_register.md R106: with a value that fits its field, that field reads as the value,
every other field is unchanged, setting twice equals once, writing back what was read changes
nothing, and the six fields, each at its place, add up to the word. -/
def Obligations.FieldLaws : Prop :=
  ∀ (f : Field) (v cfg : Half), v.toNat < 2 ^ fieldWidth f →
    getField f (setField f v cfg) = v ∧
    (∀ f' : Field, f' ≠ f → getField f' (setField f v cfg) = getField f' cfg) ∧
    setField f v (setField f v cfg) = setField f v cfg ∧
    setField f (getField f cfg) cfg = cfg ∧
    (getField .os cfg).toNat * 2 ^ 15 + (getField .mux cfg).toNat * 2 ^ 12 +
      (getField .fsr cfg).toNat * 2 ^ 9 + (getField .mode cfg).toNat * 2 ^ 8 +
      (getField .dr cfg).toNat * 2 ^ 5 + (getField .rsvd cfg).toNat = cfg.toNat

/-- 30_encoding.md R71: packing and unpacking lose nothing. -/
def Obligations.PackAndUnpackAgree : Prop :=
  (∀ (os mode : BitVec 1) (mux fsr dr : BitVec 3) (rsvd : BitVec 5),
    let w := pack os mux fsr mode dr rsvd
    w.toNat = os.toNat * 2 ^ 15 + mux.toNat * 2 ^ 12 + fsr.toNat * 2 ^ 9 + mode.toNat * 2 ^ 8 +
      dr.toNat * 2 ^ 5 + rsvd.toNat ∧
    osOf w = os ∧ muxOf w = mux ∧ fsrOf w = fsr ∧ modeOf w = mode ∧ drOf w = dr ∧
      rsvdOf w = rsvd) ∧
  (∀ w : Half, pack (osOf w) (muxOf w) (fsrOf w) (modeOf w) (drOf w) (rsvdOf w) = w) ∧
  pack 1#1 0#3 2#3 1#1 4#3 3#5 = 0x8583#16

/-- 40_config_register.md R104, R105: GETW responds the whole word, SETW replaces it; nothing else
changes but the response. -/
def Obligations.GetwAndSetwMoveTheWholeWord : Prop :=
  ∀ s : State, exec .getw s = .next (responded .ok (BitVec.ofNat 32 s.cfg.toNat) s) ∧
    ∀ w : Half, exec (.setw w) s = .next (responded .ok 0#32 { s with cfg := w })

/-! ## 41_controller_setup.md -/

/-- 41_controller_setup.md R120: BEGIN stores the address, loads and writes 0x8583 there, waits,
reads the configuration back and responds whether it was 0x8583; the value read is dropped and
nothing else changes. That `D(10)` is appended by the step that leaves `P_SETTLE`, and not before,
is the model's choice (log 9); that the rest takes two steps is log 2. -/
def Obligations.BeginProbesTheDevice : Prop :=
  (∀ (a : BusAddr) (s : State), exec (.begin a) s = .next { s with
    addr := a, cfg := 0x8583#16, phase := .settle,
    trace := s.trace ++ [.write a 0x01#8 0x8583#16] }) ∧
  ∀ s : State, s.phase = .settle → Reaches 2 s (responded .ok
    (if readValue s = 0x8583#16 then 1#32 else 0#32)
    { s with
      trace := s.trace ++ [.delay 10, .read s.addr 0x01#8 (readValue s)]
      replies := s.replies.tail
      reads := s.reads + 1 })

/-- 41_controller_setup.md R121, R122: RESET loads and writes 0x8583; RESTORE writes the cache with
bit 15 clear and keeps the cache; neither changes anything else but the response. -/
def Obligations.ResetAndRestoreWriteTheConfiguration : Prop :=
  ∀ s : State,
    exec .reset s = .next (responded .ok 0#32 (configWritten 0x8583#16 { s with cfg := 0x8583#16 })) ∧
    exec .restore s = .next (responded .ok 0#32 (configWritten
      (pack 0#1 (muxOf s.cfg) (fsrOf s.cfg) (modeOf s.cfg) (drOf s.cfg) (rsvdOf s.cfg)) s))

/-- 41_controller_setup.md R124: SETFSR. -/
def Obligations.SetfsrChangesTheRangeOnly : Prop :=
  ∀ (g : BitVec 3) (wi : Bool) (s : State),
    let w := pack (osOf s.cfg) (muxOf s.cfg) g (modeOf s.cfg) (drOf s.cfg) (rsvdOf s.cfg)
    exec (.setfsr g wi) s = .next (responded .ok 0#32
      (if g = fsrOf s.cfg then s
       else if wi then configWritten w { s with cfg := w } else { s with cfg := w }))

/-- 41_controller_setup.md R125: SETMUX. -/
def Obligations.SetmuxChangesTheSelectionOnly : Prop :=
  ∀ (m : BitVec 3) (wi : Bool) (s : State),
    let w := pack (osOf s.cfg) m (fsrOf s.cfg) (modeOf s.cfg) (drOf s.cfg) (rsvdOf s.cfg)
    exec (.setmux m wi) s = .next (responded .ok 0#32
      (if m = muxOf s.cfg then s
       else if wi then configWritten w { s with cfg := w } else { s with cfg := w }))

/-- 41_controller_setup.md R126: SETMODE has no no-op shortcut. -/
def Obligations.SetmodeAlwaysWritesWhenAsked : Prop :=
  ∀ (mode : BitVec 1) (wi : Bool) (s : State),
    let w := pack (osOf s.cfg) (muxOf s.cfg) (fsrOf s.cfg) mode (drOf s.cfg) (rsvdOf s.cfg)
    exec (.setmode mode wi) s = .next (responded .ok 0#32
      (if wi then configWritten w { s with cfg := w } else { s with cfg := w }))

/-- 41_controller_setup.md R127: SETRATE ORs its bits into DR and clears none. -/
def Obligations.SetrateOnlySetsRateBits : Prop :=
  ∀ (d : BitVec 3) (wi : Bool) (s : State),
    let w := pack (osOf s.cfg) (muxOf s.cfg) (fsrOf s.cfg) (modeOf s.cfg) (drOf s.cfg ||| d)
      (rsvdOf s.cfg)
    exec (.setrate d wi) s = .next (responded .ok 0#32
      (if wi then configWritten w { s with cfg := w } else { s with cfg := w }))

/-- 41_controller_setup.md R129: setting the multiplexer or the range twice to the same value
causes at most one bus write. -/
def Obligations.RepeatedSetterWritesAtMostOnce : Prop :=
  ∀ (x : BitVec 3) (wi wi' : Bool) (s : State),
    (∃ t u, exec (.setmux x wi) s = .next t ∧ exec (.setmux x wi') t = .next u ∧
      u.trace = t.trace ∧ t.trace.length ≤ s.trace.length + 1) ∧
    (∃ t u, exec (.setfsr x wi) s = .next t ∧ exec (.setfsr x wi') t = .next u ∧
      u.trace = t.trace ∧ t.trace.length ≤ s.trace.length + 1)

/-- 41_controller_setup.md R130: a deferred range change and the trigger make one bus write that
carries the new range and the start bit. -/
def Obligations.DeferredRangeRidesOnTheTrigger : Prop :=
  ∀ (g : BitVec 3) (s : State), modeOf s.cfg = 1#1 →
    ∃ t u w, exec (.setfsr g false) s = .next t ∧ exec .rawread t = .next u ∧
      u.trace = s.trace ++ [.write s.addr 0x01#8 w] ∧ fsrOf w = g ∧ osOf w = 1#1 ∧ u.cfg = w

/-- 70_reset_and_hazards.md R227: a pending change is not pushed by repeating the setter, and is
pushed by a setter that always writes. -/
def Obligations.PendingChangeNeedsAnotherWrite : Prop :=
  ∀ (g : BitVec 3) (s : State),
    ∃ t u v, exec (.setfsr g false) s = .next t ∧ exec (.setfsr g true) t = .next u ∧
      u.trace = s.trace ∧ exec (.setmode (modeOf u.cfg) true) u = .next v ∧
      v.cfg = u.cfg ∧ fsrOf v.cfg = g ∧ lastSent v.trace = some (v.addr, v.cfg)

/-! ## 42_conversion.md -/

/-- 42_conversion.md R140, R141, R147 to R149; 43_voltage_scaler.md R165; 44_autorange.md R181: the
trigger of a read command in single-shot mode (for VREADAR, of its first pass: a saturated read
triggers again). Up to its first poll the command makes one configuration write, which carries the
selection it reads at and the start bit, and goes to poll; nothing else changes. -/
def Obligations.SingleShotReadTriggersOnce : Prop :=
  ∀ s : State, modeOf s.cfg = 1#1 →
    exec .rawread s = .next (triggered .code (muxOf s.cfg) (fsrOf s.cfg) s) ∧
    (∀ ch : BitVec 3, exec (.readch ch) s =
      .next (triggered .code (ch ^^^ 4#3) (fsrOf s.cfg) s)) ∧
    (∀ g : BitVec 3, exec (.readfsr g) s = .next (triggered .code (muxOf s.cfg) g s)) ∧
    (∀ ch g : BitVec 3, exec (.readchfsr ch g) s = .next (triggered .code (ch ^^^ 4#3) g s)) ∧
    (∀ ch : BitVec 3, ch.toNat ≤ 3 → exec (.vread ch) s =
      .next (triggered .volt (ch ^^^ 4#3) (fsrOf s.cfg) s)) ∧
    (∀ i : Fin 4, exec (.vreadar (BitVec.ofNat 3 i.val)) s =
      .next (triggered (.auto i s.ar[i]) (BitVec.ofNat 3 (i.val + 4)) s.ar[i] s))

/-- 42_conversion.md R140, R146 to R149, R151; 70_reset_and_hazards.md R226: in continuous mode a
raw read responds at once with the code of one sample; it writes the configuration only where the
multiplexer code (READCH, READCHFSR) or the range (READFSR) changes. -/
def Obligations.ContinuousRawReadRespondsAtOnce : Prop :=
  ∀ s : State, modeOf s.cfg = 0#1 →
    let v := BitVec.ofInt 32 (codeOf (readValue s))
    exec .rawread s = .next (responded .ok v (sampled false (muxOf s.cfg) (fsrOf s.cfg) s)) ∧
    (∀ ch : BitVec 3, exec (.readch ch) s = .next (responded .ok v
      (sampled (ch ^^^ 4#3 != muxOf s.cfg) (ch ^^^ 4#3) (fsrOf s.cfg) s))) ∧
    (∀ g : BitVec 3, exec (.readfsr g) s = .next (responded .ok v
      (sampled (g != fsrOf s.cfg) (muxOf s.cfg) g s))) ∧
    (∀ ch g : BitVec 3, exec (.readchfsr ch g) s = .next (responded .ok v
      (sampled (ch ^^^ 4#3 != muxOf s.cfg) (ch ^^^ 4#3) g s)))

/-- 42_conversion.md R142, R143: one poll. Only bit 15 of the value read decides; the value is not
stored; a delay follows a poll that found the device not ready, and a short read is not ready. That
`D(POLL_DELAY)` is appended by the step that leaves `P_POLLWAIT`, and not on entering it, is the
model's choice (log 9). -/
def Obligations.PollTestsBitFifteenOnly : Prop :=
  ∀ (k : Resume) (s : State),
    (s.phase = .poll k → step s = .next { s with
      phase := if (readValue s).getLsbD 15 then .exec (.readConv k) else .pollWait k
      trace := s.trace ++ [.read s.addr 0x01#8 (readValue s)]
      replies := s.replies.tail
      reads := s.reads + 1 }) ∧
    (s.phase = .pollWait k → step s = .next { s with
      phase := .poll k, trace := s.trace ++ [.delay Config.pollDelay] }) ∧
    (replyAt s 0 = .short → (readValue s).getLsbD 15 = false)

/-- 42_conversion.md R142; 60_exceptions.md R195: however many polls find the device not ready, the
command goes on polling. After `n` of them it has read and waited `n` times, and up to then it has
not responded, taken a word or changed a register. (Two steps a poll: log 2.) -/
def Obligations.PollLoopHasNoLimit : Prop :=
  ∀ (n : Nat) (k : Resume) (s : State), s.phase = .poll k →
    (∀ j, j < n → (readValueAt s j).getLsbD 15 = false) →
    Reaches (2 * n) s { s with
      trace := s.trace ++ pollEvents s n
      replies := s.replies.drop n
      reads := s.reads + n } ∧
    ∀ m, m ≤ 2 * n → ∃ t, Reaches m s t ∧ t.phase ≠ .idle ∧ t.cmds = s.cmds ∧
      t.status = s.status ∧ t.value = s.value ∧ t.cfg = s.cfg ∧ t.addr = s.addr ∧ t.ar = s.ar

/-- 42_conversion.md R141 to R151: a raw read in single-shot mode whose device is ready at the poll
after `n` others responds the code of one sample, having made one configuration write, `n` delays
and one read of `REG_CONV`. (The count of steps is the model's: log 2.) -/
def Obligations.SingleShotReadCompletes : Prop :=
  ∀ (n : Nat) (i : Instr) (m g : BitVec 3) (s : State), modeOf s.cfg = 1#1 →
    readSelection i s.cfg = some (m, g) →
    (∀ j, j < n → (readValueAt s j).getLsbD 15 = false) → (readValueAt s n).getLsbD 15 = true →
    let t := triggered .code m g s
    exec i s = .next t ∧
    Reaches (2 * n + 2) t (responded .ok (BitVec.ofInt 32 (codeOf (readValueAt s (n + 1)))) { t with
      trace := t.trace ++ pollEvents s n ++ [.read s.addr 0x01#8 (readValueAt s n),
        .read s.addr 0x00#8 (readValueAt s (n + 1))]
      replies := s.replies.drop (n + 2)
      reads := s.reads + n + 2 })

/-- 43_voltage_scaler.md R165 over 42_conversion.md R141 to R144: VREAD in single-shot mode, at a
range of 0..5, responds the microvolts of one sample of its channel. (The count of steps is the
model's: log 2.) -/
def Obligations.SingleShotVreadCompletes : Prop :=
  ∀ (n : Nat) (ch : BitVec 3) (s : State), modeOf s.cfg = 1#1 → ch.toNat ≤ 3 →
    (fsrOf s.cfg).toNat ≤ 5 →
    (∀ j, j < n → (readValueAt s j).getLsbD 15 = false) → (readValueAt s n).getLsbD 15 = true →
    let t := triggered .volt (ch ^^^ 4#3) (fsrOf s.cfg) s
    exec (.vread ch) s = .next t ∧
    Reaches (2 * n + 2) t (responded .ok
      (microvolts (codeOf (readValueAt s (n + 1))) (fsrOf s.cfg)) { t with
        trace := t.trace ++ pollEvents s n ++ [.read s.addr 0x01#8 (readValueAt s n),
          .read s.addr 0x00#8 (readValueAt s (n + 1))]
        replies := s.replies.drop (n + 2)
        reads := s.reads + n + 2 })

/-- 42_conversion.md R145: the decoder is the floor of the signed word over sixteen; the result is
in -2048..2047, negative exactly when bit 15 is set, and bits 3:0 do not matter. -/
def Obligations.DecoderTakesTheUpperTwelveBits : Prop :=
  ∀ r : Half, (decode12 r).toInt = r.toInt / 16 ∧
    (r.getLsbD 15 = true → -2048 ≤ (decode12 r).toInt ∧ (decode12 r).toInt ≤ -1) ∧
    (r.getLsbD 15 = false → 0 ≤ (decode12 r).toInt ∧ (decode12 r).toInt ≤ 2047) ∧
    ∀ r' : Half, r.extractLsb' 4 12 = r'.extractLsb' 4 12 → decode12 r = decode12 r'

/-! ## 43_voltage_scaler.md -/

/-- 43_voltage_scaler.md R163: for a code of twelve bits and a range of 0..5 the division is exact,
the result is the code times the LSB, within -6144000..6141000, and odd in the code. -/
def Obligations.ScalerIsExact : Prop :=
  ∀ (code : Half) (g : BitVec 3), -2048 ≤ code.toInt → code.toInt ≤ 2047 → g.toNat ≤ 5 →
    ∃ fr lsb : Nat, fullRangeMV g = some fr ∧ lsbUV g = some lsb ∧
      (fr : Int) * 1000 - (lsb : Int) = 2047 * (lsb : Int) ∧
      (2047 : Int) ∣ code.toInt * ((fr : Int) * 1000 - (lsb : Int)) ∧
      scaleUV code g = some (code.toInt * (lsb : Int)) ∧
      -6144000 ≤ code.toInt * (lsb : Int) ∧ code.toInt * (lsb : Int) ≤ 6141000 ∧
      (BitVec.ofInt 32 (code.toInt * (lsb : Int))).toInt = code.toInt * (lsb : Int) ∧
      scaleUV (-code) g = some (-(code.toInt * (lsb : Int)))

/-- 43_voltage_scaler.md R160, R161, R166, R167: the two tables as commands, illegal for 6 and 7. -/
def Obligations.TableCommandsRespondTheTables : Prop :=
  ∀ (g : BitVec 3) (s : State),
    exec (.getfrv g) s = .next (if h : g.toNat < 6 then
      responded .ok (BitVec.ofNat 32 ([6144, 4096, 2048, 1024, 512, 256][g.toNat]'h)) s
      else responded .illegal 0#32 s) ∧
    exec (.getres g) s = .next (if h : g.toNat < 6 then
      responded .ok (BitVec.ofNat 32 ([3000, 2000, 1000, 500, 250, 125][g.toNat]'h)) s
      else responded .illegal 0#32 s)

/-- 43_voltage_scaler.md R165: VREAD refuses nothing. A channel above 3 responds 0 and does nothing;
in continuous mode the others respond the microvolts of one sample at the current range; for the
range codes 6 and 7 the command runs and its value is a free value (log 5: the model's choice). -/
def Obligations.VreadRespondsMicrovolts : Prop :=
  ∀ (ch : BitVec 3) (s : State),
    (3 < ch.toNat → exec (.vread ch) s = .next (responded .ok 0#32 s)) ∧
    (ch.toNat ≤ 3 → modeOf s.cfg = 0#1 →
      let t := sampled (ch ^^^ 4#3 != muxOf s.cfg) (ch ^^^ 4#3) (fsrOf s.cfg) s
      exec (.vread ch) s = .next (if (fsrOf s.cfg).toNat ≤ 5 then
          responded .ok (microvolts (codeOf (readValue s)) (fsrOf s.cfg)) t
        else responded .ok (Config.undefinedMicrovolts s.frees) { t with frees := s.frees + 1 }))

/-! ## 44_autorange.md -/

/-- 42_conversion.md R144; 43_voltage_scaler.md R165; 44_autorange.md R181 to R184: the read of
`REG_CONV` after a ready poll ends each kind of read command: the code, the microvolts at the
current range (for the range codes 6 and 7 a free value: log 5, the model's choice), or the
comparator's step, which reads again when saturated on a range narrower than the widest: that it
then stands at the start of the command, where the spec says `goto A1`, is the model's (DEDUCED,
log 8). -/
def Obligations.SampleEndsTheReadCommand : Prop :=
  ∀ (k : Resume) (s : State), s.phase = .exec (.readConv k) →
    let c := codeOf (readValue s)
    let t : State := { s with
      trace := s.trace ++ [.read s.addr 0x00#8 (readValue s)]
      replies := s.replies.tail
      reads := s.reads + 1 }
    (k = .code → step s = .next (responded .ok (BitVec.ofInt 32 c) t)) ∧
    (k = .volt → (fsrOf s.cfg).toNat ≤ 5 →
      step s = .next (responded .ok (microvolts c (fsrOf s.cfg)) t)) ∧
    (k = .volt → 5 < (fsrOf s.cfg).toNat → step s = .next
      (responded .ok (Config.undefinedMicrovolts s.frees) { t with frees := s.frees + 1 })) ∧
    ∀ (i : Fin 4) (g : BitVec 3), k = .auto i g → s.ar[i] = g → g.toNat ≤ 5 →
      let u : State := { t with ar := s.ar.set i.val (nextIndex c g) i.isLt }
      step s = .next (if c = 2047 ∧ 0 < g.toNat then
          { u with phase := .exec (.start (.vreadar (BitVec.ofNat 3 i.val))) }
        else responded .ok (microvolts c g) u)

/-- 44_autorange.md R181 to R184: one pass of VREADAR in continuous mode; a channel above 3 responds
0 and does nothing. That a saturated pass ends at the start of the command, where the spec says
`goto A1`, is the model's (DEDUCED, log 8). -/
def Obligations.VreadarPassInContinuousMode : Prop :=
  ∀ s : State,
    (∀ ch : BitVec 3, 3 < ch.toNat → exec (.vreadar ch) s = .next (responded .ok 0#32 s)) ∧
    ∀ i : Fin 4, modeOf s.cfg = 0#1 → s.ar[i].toNat ≤ 5 →
      let c := codeOf (readValue s)
      let g := s.ar[i]
      let m := BitVec.ofNat 3 (i.val + 4)
      let u : State := { sampled (m != muxOf s.cfg) m g s with
        ar := s.ar.set i.val (nextIndex c g) i.isLt }
      exec (.vreadar (BitVec.ofNat 3 i.val)) s = .next (if c = 2047 ∧ 0 < g.toNat then
          { u with phase := .exec (.start (.vreadar (BitVec.ofNat 3 i.val))) }
        else responded .ok (microvolts c g) u)

/-- 44_autorange.md R183, R185: with a device ready at every first poll, VREADAR in single-shot mode
started at index `g` responds after at most `g + 1` reads. The response is computed from the last
read, made at index `g - j` after `j` saturated ones, and a saturated code is only responded at the
widest range. (The count of steps is the model's: log 2.) -/
def Obligations.VreadarTerminatesInSingleShotMode : Prop :=
  ∀ (i : Fin 4) (s : State), s.phase = .exec (.start (.vreadar (BitVec.ofNat 3 i.val))) →
    modeOf s.cfg = 1#1 → s.ar[i].toNat ≤ 5 →
    (∀ j, j ≤ s.ar[i].toNat → (readValueAt s (2 * j)).getLsbD 15 = true) →
    ∃ (j : Nat) (gl : BitVec 3) (t : State), j + gl.toNat = s.ar[i].toNat ∧
      Reaches (3 * (j + 1)) s t ∧ t.phase = .idle ∧ t.status = .ok ∧
      (∀ j', j' < j → codeOf (readValueAt s (2 * j' + 1)) = 2047) ∧
      (codeOf (readValueAt s (2 * j + 1)) = 2047 → gl = 0#3) ∧
      t.value = microvolts (codeOf (readValueAt s (2 * j + 1))) gl ∧
      t.cfg = pack 1#1 (BitVec.ofNat 3 (i.val + 4)) gl 1#1 (drOf s.cfg) (rsvdOf s.cfg) ∧
      t.ar = s.ar.set i.val (nextIndex (codeOf (readValueAt s (2 * j + 1))) gl) i.isLt ∧
      t.reads = s.reads + 2 * (j + 1) ∧ t.addr = s.addr ∧ t.cmds = s.cmds

/-- 44_autorange.md R183, R185: the same in continuous mode, where every pass is one step (log 2). -/
def Obligations.VreadarTerminatesInContinuousMode : Prop :=
  ∀ (i : Fin 4) (s : State), s.phase = .exec (.start (.vreadar (BitVec.ofNat 3 i.val))) →
    modeOf s.cfg = 0#1 → s.ar[i].toNat ≤ 5 →
    ∃ (j : Nat) (gl : BitVec 3) (t : State), j + gl.toNat = s.ar[i].toNat ∧
      Reaches (j + 1) s t ∧ t.phase = .idle ∧ t.status = .ok ∧
      (∀ j', j' < j → codeOf (readValueAt s j') = 2047) ∧
      (codeOf (readValueAt s j) = 2047 → gl = 0#3) ∧
      t.value = microvolts (codeOf (readValueAt s j)) gl ∧
      t.cfg = pack (osOf s.cfg) (BitVec.ofNat 3 (i.val + 4)) gl 0#1 (drOf s.cfg) (rsvdOf s.cfg) ∧
      t.ar = s.ar.set i.val (nextIndex (codeOf (readValueAt s j)) gl) i.isLt ∧
      t.reads = s.reads + (j + 1) ∧ t.addr = s.addr ∧ t.cmds = s.cmds

/-- 44_autorange.md R188: an input of exactly 1842 LSBs of a range makes the index alternate between
two neighbouring ranges, with the same voltage responded each time (stated in continuous mode,
where a call is one step). -/
def Obligations.BoundaryInputAlternatesTheIndex : Prop :=
  ∀ (i : Fin 4) (s : State), modeOf s.cfg = 0#1 → 2 ≤ s.ar[i].toNat → s.ar[i].toNat ≤ 5 →
    codeOf (readValueAt s 0) = 1842 → codeOf (readValueAt s 1) = 921 →
    ∃ t u, exec (.vreadar (BitVec.ofNat 3 i.val)) s = .next t ∧
      exec (.vreadar (BitVec.ofNat 3 i.val)) t = .next u ∧ t.phase = .idle ∧ u.phase = .idle ∧
      t.ar[i] = s.ar[i] - 1#3 ∧ u.ar = s.ar ∧ t.value = u.value

/-- 70_reset_and_hazards.md R231: a negative code, the negative full scale among them, is responded
without another read and moves the index one range narrower, up to 5 (stated in continuous mode). -/
def Obligations.NegativeInputNarrowsTheRange : Prop :=
  ∀ (i : Fin 4) (s : State), modeOf s.cfg = 0#1 → s.ar[i].toNat ≤ 5 → codeOf (readValue s) < 0 →
    ∃ t, exec (.vreadar (BitVec.ofNat 3 i.val)) s = .next t ∧ t.phase = .idle ∧ t.status = .ok ∧
      t.reads = s.reads + 1 ∧ t.ar[i].toNat = min 5 (s.ar[i].toNat + 1) ∧
      (∀ j : Fin 4, j ≠ i → t.ar[j] = s.ar[j]) ∧
      t.value = microvolts (codeOf (readValue s)) s.ar[i]

/-! ## Rules about the whole machine -/

/-- 10_state.md R24, R25, R31; 41_controller_setup.md R131: only VREADAR changes a gain index, and
only that of its own channel; only BEGIN changes the address; in the waiting phases nothing changes
but a gain index when VREADAR's sample is read. -/
def Obligations.WhoWritesTheRegisters : Prop :=
  (∀ (i : Instr) (s t : State), exec i s = .next t →
    (t.addr ≠ s.addr → ∃ a, i = .begin a) ∧
    (∀ j : Fin 4, t.ar[j] ≠ s.ar[j] → i = .vreadar (BitVec.ofNat 3 j.val))) ∧
  (∀ s t : State, step s = .next t → s.phase ≠ .idle → (∀ i, s.phase ≠ .exec (.start i)) →
    t.cfg = s.cfg ∧ t.addr = s.addr ∧
    ∀ j : Fin 4, t.ar[j] ≠ s.ar[j] → ∃ g, s.phase = .exec (.readConv (.auto j g)))

/-- 20_memory.md R51, R52; 10_state.md R22: the events of a step. A step adds to the end of the
trace; it writes only `REG_CFG`, only at `ADDR`, and only the whole cache, but for RESTORE, which
clears bit 15 of the word sent. -/
def Obligations.StepWritesOnlyTheCache : Prop :=
  (∀ (i : Instr) (s t : State), exec i s = .next t → ∃ es, t.trace = s.trace ++ es ∧
    ∀ e ∈ es, eventLegal e = true ∧ ∀ a r v, e = .write a r v → a = t.addr ∧
      v = (if i = .restore then t.cfg &&& 0x7FFF#16 else t.cfg)) ∧
  (∀ s t : State, step s = .next t → ∃ es, t.trace = s.trace ++ es ∧
    (∀ e ∈ es, eventLegal e = true) ∧ (s.phase ≠ .idle → (∀ i, s.phase ≠ .exec (.start i)) →
      ∀ a r v, .write a r v ∉ es))

/-- 10_state.md R33: the response changes only in a step that ends in `P_IDLE`, so once per
command; a step that leaves a busy block busy leaves it. -/
def Obligations.ResponseComesWithIdle : Prop :=
  ∀ s t : State, step s = .next t →
    (t.phase ≠ .idle → t.status = s.status ∧ t.value = s.value) ∧
    (s.phase ≠ .idle → (∀ i, s.phase ≠ .exec (.start i)) → t.phase = .idle → t.status = .ok)

/-- 10_state.md R29: the cache's start bit is cleared only by SETF OS with an even value and by
SETW with bit 15 clear. -/
def Obligations.StartBitIsClearedOnlyByHand : Prop :=
  ∀ (i : Instr) (s t : State), exec i s = .next t → osOf s.cfg = 1#1 → osOf t.cfg = 0#1 →
    (∃ v : Half, i = .setf .os v ∧ v.getLsbD 0 = false) ∨
    (∃ w : Half, i = .setw w ∧ w.getLsbD 15 = false)

/-- 20_memory.md R53, R57: the byte order of the wire, most significant first, and the short read. -/
def Obligations.WireIsBigEndian : Prop :=
  (∀ v : Half, (wireBytes v).1.toNat * 256 + (wireBytes v).2.toNat = v.toNat ∧
    wordOfReply (.two (wireBytes v).1 (wireBytes v).2) = v) ∧
  (∀ b0 b1 : Byte, (wordOfReply (.two b0 b1)).toNat = b0.toNat * 256 + b1.toNat) ∧
  wordOfReply .short = 0#16
end

