-- ==== Sys2Proof/Laws/Decode.lean ====
section
/-! SUPPORT. The parts of an assembled word, and the operands back from their bits. -/

namespace Sys2Proof

variable {op a ma pa : BitVec 8} {imm mi pi : BitVec 16}

@[simp] theorem opPart_assemble : opPart (assemble op a imm) = op := by
  apply BitVec.eq_of_getLsbD_eq
  intro i hi
  interval_cases i <;> simp [opPart, assemble]

@[simp] theorem aPart_assemble : aPart (assemble op a imm) = a := by
  apply BitVec.eq_of_getLsbD_eq
  intro i hi
  interval_cases i <;> simp [aPart, assemble]

@[simp] theorem immPart_assemble : immPart (assemble op a imm) = imm := by
  apply BitVec.eq_of_getLsbD_eq
  intro i hi
  interval_cases i <;> simp [immPart, assemble]

/-- A word is its three parts (30_encoding.md R78). -/
theorem assemble_parts (c : Word) : assemble (opPart c) (aPart c) (immPart c) = c := by
  apply BitVec.eq_of_getLsbD_eq
  intro i hi
  interval_cases i <;> simp [assemble, opPart, aPart, immPart]

/-- Masking works part by part. -/
theorem assemble_and {op' : BitVec 8} : assemble op a imm &&& assemble op' ma mi =
    assemble (op &&& op') (a &&& ma) (imm &&& mi) := by
  apply BitVec.eq_of_getLsbD_eq
  intro i hi
  interval_cases i <;> simp [assemble]

/-- Words are equal exactly when their parts are. -/
theorem assemble_inj {op' a' : BitVec 8} {imm' : BitVec 16} :
    assemble op a imm = assemble op' a' imm' ↔ op = op' ∧ a = a' ∧ imm = imm' := by
  constructor
  · intro h
    have h1 := congrArg opPart h
    have h2 := congrArg aPart h
    have h3 := congrArg immPart h
    simp only [opPart_assemble, aPart_assemble, immPart_assemble] at h1 h2 h3
    exact ⟨h1, h2, h3⟩
  · rintro ⟨rfl, rfl, rfl⟩
    rfl

/-- The row test on the parts: a mask that fixes the whole `op` part. -/
theorem assemble_matches : assemble op a imm &&& assemble 0xFF#8 ma mi = assemble op pa pi ↔
    a &&& ma = pa ∧ imm &&& mi = pi := by
  have hop : op &&& 0xFF#8 = op := BitVec.and_allOnes
  rw [assemble_and, assemble_inj, hop]
  simp

/-- Every mask of the table fixes all of `c[31:24]` (R82), so a row selects only its own `op`. -/
theorem selects_op {o : Opcode} {c : Word} (h : o.selects c = true) :
    opPart c = opPart o.pattern := by
  have hm : ∀ o : Opcode, opPart o.mask = 0xFF#8 := by intro o; cases o <;> decide
  have h1 : c &&& o.mask = o.pattern := by simpa [Opcode.selects] using h
  have h2 : opPart c &&& opPart o.mask = opPart o.pattern := by
    rw [← h1]
    apply BitVec.eq_of_getLsbD_eq
    intro i hi
    interval_cases i <;> simp [opPart]
  rw [← h2, hm o]
  exact BitVec.and_allOnes.symm

theorem ofByte_pattern (o : Opcode) : Opcode.ofByte (opPart o.pattern) = some o := by
  cases o <;> decide

/-- The `op` byte names at most one row (R80). -/
theorem ofByte_eq_some {b : BitVec 8} {o : Opcode} (h : Opcode.ofByte b = some o) :
    b = opPart o.pattern := by
  have key : ∀ b : BitVec 8, ∀ o ∈ Opcode.ofByte b, b = opPart o.pattern := by decide
  exact key b o h

/-! The operands back from their bits (R79, R81). -/

@[simp] theorem fOperand_id {f : Field} : (f.id.setWidth 8).extractLsb' 0 3 = f.id := by
  cases f <;> decide

@[simp] theorem ofId_id {f : Field} : Field.ofId f.id = some f := by
  cases f <;> decide

@[simp] theorem wiBits_zero {wi : Bool} : (wiBits wi)[0] = wi := by
  cases wi <;> decide

@[simp] theorem low3_setWidth {g : BitVec 3} : (g.setWidth 16).extractLsb' 0 3 = g := by
  revert g
  decide

@[simp] theorem low1_setWidth {m : BitVec 1} : (m.setWidth 16).extractLsb' 0 1 = m := by
  revert m
  decide

@[simp] theorem low7_setWidth {x : BusAddr} : (x.setWidth 16).extractLsb' 0 7 = x := by
  revert x
  decide

@[simp] theorem g_gBits {g : BitVec 3} : (gBits g).extractLsb' 8 3 = g := by
  revert g
  decide

@[simp] theorem g_both {g ch : BitVec 3} :
    (gBits g ||| ch.setWidth 16).extractLsb' 8 3 = g := by
  revert g ch
  decide

@[simp] theorem low_both {g ch : BitVec 3} :
    (gBits g ||| ch.setWidth 16).extractLsb' 0 3 = ch := by
  revert g ch
  decide

/-! The bits back from the operands, where the must-be-zero bits are 0 (R82). -/

theorem and_eq_zero_bit {n : Nat} {x m : BitVec n} (h : x &&& m = 0#n) (i : Nat)
    (hm : m.getLsbD i = true) : x.getLsbD i = false := by
  have := congrArg (fun y => y.getLsbD i) h
  simpa [hm] using this

theorem low3_back (h : imm &&& 0xFFF8#16 = 0#16) : (imm.extractLsb' 0 3).setWidth 16 = imm := by
  apply BitVec.eq_of_getLsbD_eq
  intro i hi
  have := and_eq_zero_bit h i
  interval_cases i <;> simp_all

theorem low1_back (h : imm &&& 0xFFFE#16 = 0#16) : (imm.extractLsb' 0 1).setWidth 16 = imm := by
  apply BitVec.eq_of_getLsbD_eq
  intro i hi
  have := and_eq_zero_bit h i
  interval_cases i <;> simp_all

theorem low7_back (h : imm &&& 0xFF80#16 = 0#16) : (imm.extractLsb' 0 7).setWidth 16 = imm := by
  apply BitVec.eq_of_getLsbD_eq
  intro i hi
  have := and_eq_zero_bit h i
  interval_cases i <;> simp_all

theorem g_back (h : imm &&& 0xF8FF#16 = 0#16) : gBits (imm.extractLsb' 8 3) = imm := by
  apply BitVec.eq_of_getLsbD_eq
  intro i hi
  have := and_eq_zero_bit h i
  interval_cases i <;> simp_all [gBits]

theorem both_back (h : imm &&& 0xF8F8#16 = 0#16) :
    gBits (imm.extractLsb' 8 3) ||| (imm.extractLsb' 0 3).setWidth 16 = imm := by
  apply BitVec.eq_of_getLsbD_eq
  intro i hi
  have := and_eq_zero_bit h i
  interval_cases i <;> simp_all [gBits]

theorem wi_back (h : a &&& 0xFE#8 = 0#8) : wiBits (a.getLsbD 0) = a := by
  revert a
  decide

theorem id_back {f : Field} (h : a &&& 0xF8#8 = 0#8)
    (hf : Field.ofId (a.extractLsb' 0 3) = some f) : f.id.setWidth 8 = a := by
  have key : ∀ a : BitVec 8, a &&& 0xF8#8 = 0#8 → ∀ f ∈ Field.ofId (a.extractLsb' 0 3),
      f.id.setWidth 8 = a := by decide
  exact key a h f hf

end Sys2Proof
end

