-- ==== Sys2Proof/Laws/Fields.lean ====
section
/-! SUPPORT. The configuration word as its six fields (30_encoding.md R71, 40_config_register.md
R106), the channel map, the result decoder and the scaler. -/

namespace Sys2Proof.Machine

variable {os mode : BitVec 1} {mux fsr dr : BitVec 3} {rsvd : BitVec 5} {cfg : Half}

/-! A word and its fields. -/

@[simp] theorem osOf_pack : osOf (pack os mux fsr mode dr rsvd) = os := by
  apply BitVec.eq_of_getLsbD_eq
  intro i hi
  interval_cases i
  simp [pack, osOf]

@[simp] theorem muxOf_pack : muxOf (pack os mux fsr mode dr rsvd) = mux := by
  apply BitVec.eq_of_getLsbD_eq
  intro i hi
  interval_cases i <;> simp [pack, muxOf]

@[simp] theorem fsrOf_pack : fsrOf (pack os mux fsr mode dr rsvd) = fsr := by
  apply BitVec.eq_of_getLsbD_eq
  intro i hi
  interval_cases i <;> simp [pack, fsrOf]

@[simp] theorem modeOf_pack : modeOf (pack os mux fsr mode dr rsvd) = mode := by
  apply BitVec.eq_of_getLsbD_eq
  intro i hi
  interval_cases i
  simp [pack, modeOf]

@[simp] theorem drOf_pack : drOf (pack os mux fsr mode dr rsvd) = dr := by
  apply BitVec.eq_of_getLsbD_eq
  intro i hi
  interval_cases i <;> simp [pack, drOf]

@[simp] theorem rsvdOf_pack : rsvdOf (pack os mux fsr mode dr rsvd) = rsvd := by
  apply BitVec.eq_of_getLsbD_eq
  intro i hi
  interval_cases i <;> simp [pack, rsvdOf]

@[simp] theorem pack_fields :
    pack (osOf cfg) (muxOf cfg) (fsrOf cfg) (modeOf cfg) (drOf cfg) (rsvdOf cfg) = cfg := by
  apply BitVec.eq_of_getLsbD_eq
  intro i hi
  interval_cases i <;>
    simp [pack, osOf, muxOf, fsrOf, modeOf, drOf, rsvdOf]

/-! The field primitive with a value that fits (R100 (a)). -/

theorem setField_os {v : BitVec 1} : setField .os (v.setWidth 16) cfg =
    pack v (muxOf cfg) (fsrOf cfg) (modeOf cfg) (drOf cfg) (rsvdOf cfg) := by
  apply BitVec.eq_of_getLsbD_eq
  intro i hi
  interval_cases i <;>
    simp [setField, fieldMask, fieldPos, pack, muxOf, fsrOf, modeOf, drOf, rsvdOf]

theorem setField_mux {v : BitVec 3} : setField .mux (v.setWidth 16) cfg =
    pack (osOf cfg) v (fsrOf cfg) (modeOf cfg) (drOf cfg) (rsvdOf cfg) := by
  apply BitVec.eq_of_getLsbD_eq
  intro i hi
  interval_cases i <;>
    simp [setField, fieldMask, fieldPos, pack, osOf, fsrOf, modeOf, drOf, rsvdOf]

theorem setField_fsr {v : BitVec 3} : setField .fsr (v.setWidth 16) cfg =
    pack (osOf cfg) (muxOf cfg) v (modeOf cfg) (drOf cfg) (rsvdOf cfg) := by
  apply BitVec.eq_of_getLsbD_eq
  intro i hi
  interval_cases i <;>
    simp [setField, fieldMask, fieldPos, pack, osOf, muxOf, modeOf, drOf, rsvdOf]

theorem setField_mode {v : BitVec 1} : setField .mode (v.setWidth 16) cfg =
    pack (osOf cfg) (muxOf cfg) (fsrOf cfg) v (drOf cfg) (rsvdOf cfg) := by
  apply BitVec.eq_of_getLsbD_eq
  intro i hi
  interval_cases i <;>
    simp [setField, fieldMask, fieldPos, pack, osOf, muxOf, fsrOf, drOf, rsvdOf]

theorem setField_dr {v : BitVec 3} : setField .dr (v.setWidth 16) cfg =
    pack (osOf cfg) (muxOf cfg) (fsrOf cfg) (modeOf cfg) v (rsvdOf cfg) := by
  apply BitVec.eq_of_getLsbD_eq
  intro i hi
  interval_cases i <;>
    simp [setField, fieldMask, fieldPos, pack, osOf, muxOf, fsrOf, modeOf, rsvdOf]

theorem setField_rsvd {v : BitVec 5} : setField .rsvd (v.setWidth 16) cfg =
    pack (osOf cfg) (muxOf cfg) (fsrOf cfg) (modeOf cfg) (drOf cfg) v := by
  apply BitVec.eq_of_getLsbD_eq
  intro i hi
  interval_cases i <;>
    simp [setField, fieldMask, fieldPos, pack, osOf, muxOf, fsrOf, modeOf, drOf]

/-- SETRATE's OR touches DR only (41_controller_setup.md R127). -/
theorem orRate_eq {d : BitVec 3} : orRate d cfg =
    pack (osOf cfg) (muxOf cfg) (fsrOf cfg) (modeOf cfg) (drOf cfg ||| d) (rsvdOf cfg) := by
  apply BitVec.eq_of_getLsbD_eq
  intro i hi
  interval_cases i <;>
    simp [orRate, pack, osOf, muxOf, fsrOf, modeOf, drOf, rsvdOf]

/-- `GetField` is the field view, zero-extended (R101). -/
theorem getField_eq (f : Field) : getField f cfg =
    match f with
    | .os => (osOf cfg).setWidth 16
    | .mux => (muxOf cfg).setWidth 16
    | .fsr => (fsrOf cfg).setWidth 16
    | .mode => (modeOf cfg).setWidth 16
    | .dr => (drOf cfg).setWidth 16
    | .rsvd => (rsvdOf cfg).setWidth 16 := by
  cases f <;> apply BitVec.eq_of_getLsbD_eq <;> intro i hi <;> interval_cases i <;>
    simp [getField, fieldMask, fieldPos, osOf, muxOf, fsrOf, modeOf, drOf, rsvdOf]

/-- Setting a field to the value it has changes nothing (R106), so the no-op test of SetFsr and
SetMux is on the write alone. -/
theorem setField_fsr_self : setField .fsr ((fsrOf cfg).setWidth 16) cfg = cfg := by
  rw [setField_fsr, pack_fields]

theorem setField_mux_self : setField .mux ((muxOf cfg).setWidth 16) cfg = cfg := by
  rw [setField_mux, pack_fields]

theorem setField_start : setField .os 1#16 cfg =
    pack 1#1 (muxOf cfg) (fsrOf cfg) (modeOf cfg) (drOf cfg) (rsvdOf cfg) :=
  setField_os (v := 1#1)

theorem getLsbD_fifteen : cfg.getLsbD 15 = (osOf cfg == 1#1) := by
  have h : osOf cfg = BitVec.ofBool (cfg.getLsbD 15) := by
    apply BitVec.eq_of_getLsbD_eq
    intro i hi
    interval_cases i
    simp [osOf]
  rw [h]
  cases cfg.getLsbD 15 <;> rfl

/-! The wire (20_memory.md R53). -/

theorem wordOfReply_wireBytes {v : Half} :
    wordOfReply (.two (wireBytes v).1 (wireBytes v).2) = v := by
  apply BitVec.eq_of_getLsbD_eq
  intro i hi
  interval_cases i <;> simp [wordOfReply, wireBytes]

/-! The channel map (30_encoding.md R77). -/

theorem chanToMux_eq_xor (ch : BitVec 3) : chanToMux ch = ch ^^^ 4#3 := by
  revert ch
  decide

/-- The multiplexer code of a slot's channel (R77). -/
theorem slotChannel_mux (i : Fin 4) : slotChannel i ^^^ 4#3 = BitVec.ofNat 3 (i.val + 4) := by
  revert i
  decide

theorem autoSlot_slotChannel (i : Fin 4) : autoSlot (slotChannel i) = some i := by
  revert i
  decide

theorem autoSlot_eq_some {ch : BitVec 3} {i : Fin 4} (h : autoSlot ch = some i) :
    ch = slotChannel i := by
  revert ch i
  decide

theorem autoSlot_eq_none {ch : BitVec 3} : autoSlot ch = none ↔ 3 < ch.toNat := by
  revert ch
  decide

/-! The result decoder (42_conversion.md R145). -/

/-- Decoding is the arithmetic shift by four. -/
theorem decode12_eq_sshiftRight (r : Half) : decode12 r = r.sshiftRight 4 := by
  unfold decode12
  have h11 : (r >>> 4).getLsbD 11 = r.getLsbD 15 := by simp
  have hm : r.msb = r.getLsbD 15 := by simp [BitVec.msb_eq_getLsbD_last]
  simp only [h11]
  cases h : r.getLsbD 15 <;> apply BitVec.eq_of_getLsbD_eq <;> intro i hi <;>
    rw [h] at hm <;> interval_cases i <;>
    simp [BitVec.getElem_sshiftRight, hm]

theorem decode12_toInt (r : Half) : (decode12 r).toInt = r.toInt / 16 := by
  rw [decode12_eq_sshiftRight, BitVec.toInt_sshiftRight, Int.shiftRight_eq_div_pow]
  rfl

theorem decode12_range (r : Half) : -2048 ≤ (decode12 r).toInt ∧ (decode12 r).toInt ≤ 2047 := by
  have h1 := BitVec.toInt_lt (x := r)
  have h2 := BitVec.le_toInt (x := r)
  rw [decode12_toInt]
  omega

/-! The scaler (43_voltage_scaler.md R160 to R163). -/

/-- The two tables fit: `FullRange_mV * 1000 - Lsb_uV = 2047 * Lsb_uV` (R163). -/
theorem scale_tables_fit {g : BitVec 3} {fr lsb : Nat} (hf : fullRangeMV g = some fr)
    (hl : lsbUV g = some lsb) : (fr : Int) * 1000 - (lsb : Int) = 2047 * (lsb : Int) := by
  have key : ∀ g : BitVec 3, ∀ fr ∈ fullRangeMV g, ∀ lsb ∈ lsbUV g,
      fr * 1000 = 2047 * lsb + lsb := by decide
  have := key g fr hf lsb hl
  omega

/-- The division is exact: the scaler is one multiplication (R163). -/
theorem scaleUV_eq {code : Half} {g : BitVec 3} {lsb : Nat} (hl : lsbUV g = some lsb) :
    scaleUV code g = some (code.toInt * (lsb : Int)) := by
  have key : ∀ g : BitVec 3, (lsbUV g).isSome = true → (fullRangeMV g).isSome = true := by decide
  obtain ⟨fr, hf⟩ := Option.isSome_iff_exists.1 (key g (by rw [hl]; rfl))
  unfold scaleUV
  rw [hf, hl]
  simp only [scale_tables_fit hf hl]
  congr 1
  rw [show code.toInt * (2047 * (lsb : Int)) = 2047 * (code.toInt * lsb) by ring]
  exact Int.mul_ediv_cancel_left _ (by decide)

theorem lsbUV_isSome {g : BitVec 3} : (lsbUV g).isSome = true ↔ g.toNat ≤ 5 := by
  revert g
  decide

theorem scaleUV_eq_none {code : Half} {g : BitVec 3} (h : 5 < g.toNat) : scaleUV code g = none := by
  have hf : fullRangeMV g = none := by
    unfold fullRangeMV
    rw [if_neg (by omega)]
  simp [scaleUV, hf]

end Sys2Proof.Machine
end

