-- ==== Sys2Proof/Laws/State.lean ====
section
/-! SUPPORT. One lemma per field and update: what each elementary operation leaves in each field. -/

namespace Sys2Proof.Machine

variable {s : State}

@[simp] theorem emit_cfg {e : Event} : (emit e s).cfg = s.cfg := rfl
@[simp] theorem emit_addr {e : Event} : (emit e s).addr = s.addr := rfl
@[simp] theorem emit_ar {e : Event} : (emit e s).ar = s.ar := rfl
@[simp] theorem emit_phase {e : Event} : (emit e s).phase = s.phase := rfl
@[simp] theorem emit_status {e : Event} : (emit e s).status = s.status := rfl
@[simp] theorem emit_value {e : Event} : (emit e s).value = s.value := rfl
@[simp] theorem emit_trace {e : Event} : (emit e s).trace = s.trace ++ [e] := rfl
@[simp] theorem emit_cmds {e : Event} : (emit e s).cmds = s.cmds := rfl
@[simp] theorem emit_replies {e : Event} : (emit e s).replies = s.replies := rfl
@[simp] theorem emit_reads {e : Event} : (emit e s).reads = s.reads := rfl
@[simp] theorem emit_frees {e : Event} : (emit e s).frees = s.frees := rfl

@[simp] theorem setCfg_cfg {v : Half} : (setCfg v s).cfg = v := rfl
@[simp] theorem setCfg_addr {v : Half} : (setCfg v s).addr = s.addr := rfl
@[simp] theorem setCfg_ar {v : Half} : (setCfg v s).ar = s.ar := rfl
@[simp] theorem setCfg_phase {v : Half} : (setCfg v s).phase = s.phase := rfl
@[simp] theorem setCfg_status {v : Half} : (setCfg v s).status = s.status := rfl
@[simp] theorem setCfg_value {v : Half} : (setCfg v s).value = s.value := rfl
@[simp] theorem setCfg_trace {v : Half} : (setCfg v s).trace = s.trace := rfl
@[simp] theorem setCfg_cmds {v : Half} : (setCfg v s).cmds = s.cmds := rfl
@[simp] theorem setCfg_replies {v : Half} : (setCfg v s).replies = s.replies := rfl
@[simp] theorem setCfg_reads {v : Half} : (setCfg v s).reads = s.reads := rfl
@[simp] theorem setCfg_frees {v : Half} : (setCfg v s).frees = s.frees := rfl

@[simp] theorem setAddr_cfg {a : BusAddr} : (setAddr a s).cfg = s.cfg := rfl
@[simp] theorem setAddr_addr {a : BusAddr} : (setAddr a s).addr = a := rfl
@[simp] theorem setAddr_ar {a : BusAddr} : (setAddr a s).ar = s.ar := rfl
@[simp] theorem setAddr_phase {a : BusAddr} : (setAddr a s).phase = s.phase := rfl
@[simp] theorem setAddr_status {a : BusAddr} : (setAddr a s).status = s.status := rfl
@[simp] theorem setAddr_value {a : BusAddr} : (setAddr a s).value = s.value := rfl
@[simp] theorem setAddr_trace {a : BusAddr} : (setAddr a s).trace = s.trace := rfl
@[simp] theorem setAddr_cmds {a : BusAddr} : (setAddr a s).cmds = s.cmds := rfl
@[simp] theorem setAddr_replies {a : BusAddr} : (setAddr a s).replies = s.replies := rfl
@[simp] theorem setAddr_reads {a : BusAddr} : (setAddr a s).reads = s.reads := rfl
@[simp] theorem setAddr_frees {a : BusAddr} : (setAddr a s).frees = s.frees := rfl

@[simp] theorem setAr_cfg {i : Fin 4} {g : BitVec 3} : (setAr i g s).cfg = s.cfg := rfl
@[simp] theorem setAr_addr {i : Fin 4} {g : BitVec 3} : (setAr i g s).addr = s.addr := rfl
@[simp] theorem setAr_ar {i : Fin 4} {g : BitVec 3} : (setAr i g s).ar = s.ar.set i.val g i.isLt := rfl
@[simp] theorem setAr_phase {i : Fin 4} {g : BitVec 3} : (setAr i g s).phase = s.phase := rfl
@[simp] theorem setAr_status {i : Fin 4} {g : BitVec 3} : (setAr i g s).status = s.status := rfl
@[simp] theorem setAr_value {i : Fin 4} {g : BitVec 3} : (setAr i g s).value = s.value := rfl
@[simp] theorem setAr_trace {i : Fin 4} {g : BitVec 3} : (setAr i g s).trace = s.trace := rfl
@[simp] theorem setAr_cmds {i : Fin 4} {g : BitVec 3} : (setAr i g s).cmds = s.cmds := rfl
@[simp] theorem setAr_replies {i : Fin 4} {g : BitVec 3} : (setAr i g s).replies = s.replies := rfl
@[simp] theorem setAr_reads {i : Fin 4} {g : BitVec 3} : (setAr i g s).reads = s.reads := rfl
@[simp] theorem setAr_frees {i : Fin 4} {g : BitVec 3} : (setAr i g s).frees = s.frees := rfl

@[simp] theorem setPhase_cfg {p : Phase} : (setPhase p s).cfg = s.cfg := rfl
@[simp] theorem setPhase_addr {p : Phase} : (setPhase p s).addr = s.addr := rfl
@[simp] theorem setPhase_ar {p : Phase} : (setPhase p s).ar = s.ar := rfl
@[simp] theorem setPhase_phase {p : Phase} : (setPhase p s).phase = p := rfl
@[simp] theorem setPhase_status {p : Phase} : (setPhase p s).status = s.status := rfl
@[simp] theorem setPhase_value {p : Phase} : (setPhase p s).value = s.value := rfl
@[simp] theorem setPhase_trace {p : Phase} : (setPhase p s).trace = s.trace := rfl
@[simp] theorem setPhase_cmds {p : Phase} : (setPhase p s).cmds = s.cmds := rfl
@[simp] theorem setPhase_replies {p : Phase} : (setPhase p s).replies = s.replies := rfl
@[simp] theorem setPhase_reads {p : Phase} : (setPhase p s).reads = s.reads := rfl
@[simp] theorem setPhase_frees {p : Phase} : (setPhase p s).frees = s.frees := rfl

@[simp] theorem memWrite_cfg {r : RegAddr} {v : Half} : (memWrite r v s).cfg = s.cfg := rfl
@[simp] theorem memWrite_addr {r : RegAddr} {v : Half} : (memWrite r v s).addr = s.addr := rfl
@[simp] theorem memWrite_ar {r : RegAddr} {v : Half} : (memWrite r v s).ar = s.ar := rfl
@[simp] theorem memWrite_phase {r : RegAddr} {v : Half} : (memWrite r v s).phase = s.phase := rfl
@[simp] theorem memWrite_status {r : RegAddr} {v : Half} : (memWrite r v s).status = s.status := rfl
@[simp] theorem memWrite_value {r : RegAddr} {v : Half} : (memWrite r v s).value = s.value := rfl
@[simp] theorem memWrite_trace {r : RegAddr} {v : Half} : (memWrite r v s).trace = s.trace ++ [.write s.addr r v] := rfl
@[simp] theorem memWrite_cmds {r : RegAddr} {v : Half} : (memWrite r v s).cmds = s.cmds := rfl
@[simp] theorem memWrite_replies {r : RegAddr} {v : Half} : (memWrite r v s).replies = s.replies := rfl
@[simp] theorem memWrite_reads {r : RegAddr} {v : Half} : (memWrite r v s).reads = s.reads := rfl
@[simp] theorem memWrite_frees {r : RegAddr} {v : Half} : (memWrite r v s).frees = s.frees := rfl

@[simp] theorem memRead_cfg {r : RegAddr} : (memRead r s).cfg = s.cfg := rfl
@[simp] theorem memRead_addr {r : RegAddr} : (memRead r s).addr = s.addr := rfl
@[simp] theorem memRead_ar {r : RegAddr} : (memRead r s).ar = s.ar := rfl
@[simp] theorem memRead_phase {r : RegAddr} : (memRead r s).phase = s.phase := rfl
@[simp] theorem memRead_status {r : RegAddr} : (memRead r s).status = s.status := rfl
@[simp] theorem memRead_value {r : RegAddr} : (memRead r s).value = s.value := rfl
@[simp] theorem memRead_trace {r : RegAddr} : (memRead r s).trace = s.trace ++ [.read s.addr r (readValue s)] := rfl
@[simp] theorem memRead_cmds {r : RegAddr} : (memRead r s).cmds = s.cmds := rfl
@[simp] theorem memRead_replies {r : RegAddr} : (memRead r s).replies = s.replies.tail := rfl
@[simp] theorem memRead_reads {r : RegAddr} : (memRead r s).reads = s.reads + 1 := rfl
@[simp] theorem memRead_frees {r : RegAddr} : (memRead r s).frees = s.frees := rfl

@[simp] theorem delay_cfg {n : Nat} : (delay n s).cfg = s.cfg := rfl
@[simp] theorem delay_addr {n : Nat} : (delay n s).addr = s.addr := rfl
@[simp] theorem delay_ar {n : Nat} : (delay n s).ar = s.ar := rfl
@[simp] theorem delay_phase {n : Nat} : (delay n s).phase = s.phase := rfl
@[simp] theorem delay_status {n : Nat} : (delay n s).status = s.status := rfl
@[simp] theorem delay_value {n : Nat} : (delay n s).value = s.value := rfl
@[simp] theorem delay_trace {n : Nat} : (delay n s).trace = s.trace ++ [.delay n] := rfl
@[simp] theorem delay_cmds {n : Nat} : (delay n s).cmds = s.cmds := rfl
@[simp] theorem delay_replies {n : Nat} : (delay n s).replies = s.replies := rfl
@[simp] theorem delay_reads {n : Nat} : (delay n s).reads = s.reads := rfl
@[simp] theorem delay_frees {n : Nat} : (delay n s).frees = s.frees := rfl

@[simp] theorem respond_cfg {st : Status} {v : Word} : (respond st v s).cfg = s.cfg := rfl
@[simp] theorem respond_addr {st : Status} {v : Word} : (respond st v s).addr = s.addr := rfl
@[simp] theorem respond_ar {st : Status} {v : Word} : (respond st v s).ar = s.ar := rfl
@[simp] theorem respond_phase {st : Status} {v : Word} : (respond st v s).phase = .idle := rfl
@[simp] theorem respond_status {st : Status} {v : Word} : (respond st v s).status = st := rfl
@[simp] theorem respond_value {st : Status} {v : Word} : (respond st v s).value = v := rfl
@[simp] theorem respond_trace {st : Status} {v : Word} : (respond st v s).trace = s.trace := rfl
@[simp] theorem respond_cmds {st : Status} {v : Word} : (respond st v s).cmds = s.cmds := rfl
@[simp] theorem respond_replies {st : Status} {v : Word} : (respond st v s).replies = s.replies := rfl
@[simp] theorem respond_reads {st : Status} {v : Word} : (respond st v s).reads = s.reads := rfl
@[simp] theorem respond_frees {st : Status} {v : Word} : (respond st v s).frees = s.frees := rfl

@[simp] theorem takeWord_cfg : (takeWord s).cfg = s.cfg := rfl
@[simp] theorem takeWord_addr : (takeWord s).addr = s.addr := rfl
@[simp] theorem takeWord_ar : (takeWord s).ar = s.ar := rfl
@[simp] theorem takeWord_phase : (takeWord s).phase = s.phase := rfl
@[simp] theorem takeWord_status : (takeWord s).status = s.status := rfl
@[simp] theorem takeWord_value : (takeWord s).value = s.value := rfl
@[simp] theorem takeWord_trace : (takeWord s).trace = s.trace := rfl
@[simp] theorem takeWord_cmds : (takeWord s).cmds = s.cmds.tail := rfl
@[simp] theorem takeWord_replies : (takeWord s).replies = s.replies := rfl
@[simp] theorem takeWord_reads : (takeWord s).reads = s.reads := rfl
@[simp] theorem takeWord_frees : (takeWord s).frees = s.frees := rfl

@[simp] theorem writeCfg_cfg : (writeCfg s).cfg = s.cfg := rfl
@[simp] theorem writeCfg_addr : (writeCfg s).addr = s.addr := rfl
@[simp] theorem writeCfg_ar : (writeCfg s).ar = s.ar := rfl
@[simp] theorem writeCfg_phase : (writeCfg s).phase = s.phase := rfl
@[simp] theorem writeCfg_status : (writeCfg s).status = s.status := rfl
@[simp] theorem writeCfg_value : (writeCfg s).value = s.value := rfl
@[simp] theorem writeCfg_trace : (writeCfg s).trace = s.trace ++ [.write s.addr Config.regCfg s.cfg] := rfl
@[simp] theorem writeCfg_cmds : (writeCfg s).cmds = s.cmds := rfl
@[simp] theorem writeCfg_replies : (writeCfg s).replies = s.replies := rfl
@[simp] theorem writeCfg_reads : (writeCfg s).reads = s.reads := rfl
@[simp] theorem writeCfg_frees : (writeCfg s).frees = s.frees := rfl

/-! The next answer of the device after one was used up. -/

@[simp] theorem replyAt_memRead {r : RegAddr} {n : Nat} :
    replyAt (memRead r s) n = replyAt s (n + 1) := by
  unfold replyAt
  simp only [memRead_replies, memRead_reads, List.getElem?_tail, Nat.add_assoc, Nat.add_comm 1 n]

@[simp] theorem readValueAt_memRead {r : RegAddr} {n : Nat} :
    readValueAt (memRead r s) n = readValueAt s (n + 1) := by
  simp [readValueAt]

/-- The answers to come depend on the written-down answers and the read counter only. -/
theorem replyAt_congr {t : State} (hr : t.replies = s.replies) (hn : t.reads = s.reads) (n : Nat) :
    replyAt t n = replyAt s n := by
  unfold replyAt
  rw [hr, hn]

theorem readValueAt_congr {t : State} (hr : t.replies = s.replies) (hn : t.reads = s.reads)
    (n : Nat) : readValueAt t n = readValueAt s n := by
  unfold readValueAt
  rw [replyAt_congr hr hn]

/-! The four gain indices. -/

theorem setAr_getElem {i j : Fin 4} {g : BitVec 3} :
    (setAr i g s).ar[j] = if i = j then g else s.ar[j] := by
  simp only [setAr_ar, Fin.getElem_fin, Vector.getElem_set, Fin.ext_iff]

end Sys2Proof.Machine
end

