-- ==== Sys2Proof/Laws/Ops.lean ====
section
/-! SUPPORT. What each shared operation can do, said once. -/

namespace Sys2Proof.Machine

variable {s : State} {wi : Bool} {k : Resume}

/-! ## Setters -/

/-- `SetFsr` in one equation (41_controller_setup.md R124): the cache gets the range whatever it
was, and only the write depends on the no-op test. -/
theorem setFsr_eq {g : BitVec 3} : setFsr g wi s =
    { s with
      cfg := pack (osOf s.cfg) (muxOf s.cfg) g (modeOf s.cfg) (drOf s.cfg) (rsvdOf s.cfg)
      trace := s.trace ++ (if g ≠ fsrOf s.cfg ∧ wi = true then
        [.write s.addr Config.regCfg
          (pack (osOf s.cfg) (muxOf s.cfg) g (modeOf s.cfg) (drOf s.cfg) (rsvdOf s.cfg))]
        else []) } := by
  unfold setFsr State.fsr
  split
  · rename_i h
    subst h
    simp
  · rename_i h
    cases wi <;> simp [h, writeIf, writeCfg, memWrite, emit, setCfg, setField_fsr]

/-- `SetMux` in one equation (R125). -/
theorem setMux_eq {m : BitVec 3} : setMux m wi s =
    { s with
      cfg := pack (osOf s.cfg) m (fsrOf s.cfg) (modeOf s.cfg) (drOf s.cfg) (rsvdOf s.cfg)
      trace := s.trace ++ (if m ≠ muxOf s.cfg ∧ wi = true then
        [.write s.addr Config.regCfg
          (pack (osOf s.cfg) m (fsrOf s.cfg) (modeOf s.cfg) (drOf s.cfg) (rsvdOf s.cfg))]
        else []) } := by
  unfold setMux State.mux
  split
  · rename_i h
    subst h
    simp
  · rename_i h
    cases wi <;> simp [h, writeIf, writeCfg, memWrite, emit, setCfg, setField_mux]

/-- The write of `SetMode` and `SetRate` (R126, R127). -/
theorem writeIf_eq : writeIf wi s =
    { s with trace := s.trace ++ (if wi then [.write s.addr Config.regCfg s.cfg] else []) } := by
  cases wi <;> simp [writeIf, writeCfg, memWrite, emit]

/-! ## What ends a read command -/

/-- Only a gain index, the phase, the response and the free-value index can change when a read
command ends, and it ends in `P_IDLE` with `ST_OK` or, in VREADAR, at the start of another pass
with the response untouched (R144, R165, R181). -/
theorem finishRead_cases (k : Resume) (code : Half) (s : State) :
    (∃ v f ar, finishRead k code s =
      { s with ar := ar, phase := .idle, status := .ok, value := v, frees := f } ∧
      (ar = s.ar ∨ ∃ slot g, k = .auto slot g ∧ ∃ g', ar = s.ar.set slot.val g' slot.isLt)) ∨
    (∃ slot g ar, k = .auto slot g ∧ finishRead k code s =
      { s with ar := ar, phase := .exec (.start (.vreadar (slotChannel slot))) } ∧
      (ar = s.ar ∨ ∃ g', ar = s.ar.set slot.val g' slot.isLt)) := by
  have scaled : ∀ (g : BitVec 3) (s : State), ∃ v f, respondScaled code g s =
      { s with phase := .idle, status := .ok, value := v, frees := f } := by
    intro g s
    unfold respondScaled
    split
    · exact ⟨_, s.frees, rfl⟩
    · exact ⟨_, _, rfl⟩
  cases k with
  | code => exact .inl ⟨_, s.frees, s.ar, rfl, .inl rfl⟩
  | volt =>
    obtain ⟨v, f, h⟩ := scaled s.fsr s
    exact .inl ⟨v, f, s.ar, h, .inl rfl⟩
  | auto slot g =>
    have adj : ∃ ar, adjustRange slot code g s = { s with ar := ar } ∧
        (ar = s.ar ∨ ∃ g', ar = s.ar.set slot.val g' slot.isLt) := by
      unfold adjustRange
      split
      · exact ⟨_, rfl, .inr ⟨_, rfl⟩⟩
      · exact ⟨s.ar, rfl, .inl rfl⟩
    obtain ⟨ar, ha, hor⟩ := adj
    simp only [finishRead, finishAuto, ha]
    split
    · exact .inr ⟨slot, g, ar, rfl, rfl, hor⟩
    · obtain ⟨v, f, h⟩ := scaled g { s with ar := ar }
      refine .inl ⟨v, f, ar, h, ?_⟩
      rcases hor with h0 | ⟨g', h0⟩
      · exact .inl h0
      · exact .inr ⟨slot, g, rfl, g', h0⟩

/-! ## The trigger and the reads -/

/-- The trigger in one equation (42_conversion.md R141). -/
theorem trigger_eq (h : modeOf s.cfg = 1#1) :
    trigger k s = triggered k (muxOf s.cfg) (fsrOf s.cfg) s := by
  simp only [trigger, triggered, setField_start, h]
  rfl

/-- `RawRead` branches on the mode only (R140). -/
theorem rawRead_singleShot (h : modeOf s.cfg = 1#1) :
    rawRead k s = triggered k (muxOf s.cfg) (fsrOf s.cfg) s := by
  rw [rawRead, if_pos (show s.mode = 1#1 from h), trigger_eq h]

theorem rawRead_continuous (h : modeOf s.cfg = 0#1) : rawRead k s = readConvStep k s := by
  have : s.mode ≠ 1#1 := by
    rw [State.mode, h]
    decide
  rw [rawRead, if_neg this]

/-- The mode bit has two values. -/
theorem mode_cases (cfg : Half) : modeOf cfg = 0#1 ∨ modeOf cfg = 1#1 := by
  generalize modeOf cfg = m
  revert m
  decide

/-- The read of a channel in single-shot mode: one trigger that carries the new selection (R147). -/
theorem readCh_singleShot {ch : BitVec 3} (h : modeOf s.cfg = 1#1) :
    readCh ch k s = triggered k (ch ^^^ 4#3) (fsrOf s.cfg) s := by
  have hw : writeNow s = false := by rw [writeNow, State.mode, h]; rfl
  rw [readCh, hw, rawRead_singleShot (by simp [setMux_eq, h])]
  simp [setMux_eq, triggered, chanToMux_eq_xor]

/-- The read of a channel in continuous mode: one sample, after a configuration write where the
selection changes (R147). -/
theorem readCh_continuous {ch : BitVec 3} (h : modeOf s.cfg = 0#1) :
    readCh ch k s = finishRead k (decode12 (readValue s))
      (sampled (ch ^^^ 4#3 != muxOf s.cfg) (ch ^^^ 4#3) (fsrOf s.cfg) s) := by
  have hw : writeNow s = true := by rw [writeNow, State.mode, h]; rfl
  rw [readCh, hw, rawRead_continuous (by simp [setMux_eq, h]), readConvStep]
  have hv : readValue (setMux (chanToMux ch) true s) = readValue s :=
    readValueAt_congr (by simp [setMux_eq]) (by simp [setMux_eq]) 0
  have hs : memRead Config.regConv (setMux (chanToMux ch) true s) =
      sampled (ch ^^^ 4#3 != muxOf s.cfg) (ch ^^^ 4#3) (fsrOf s.cfg) s := by
    unfold memRead
    rw [hv]
    simp [setMux_eq, sampled, chanToMux_eq_xor, h, emit, Config.regConv, Config.regCfg, bne]
  rw [hv, hs]

theorem readFsr_singleShot {g : BitVec 3} (h : modeOf s.cfg = 1#1) :
    readFsr g k s = triggered k (muxOf s.cfg) g s := by
  have hw : writeNow s = false := by rw [writeNow, State.mode, h]; rfl
  rw [readFsr, hw, rawRead_singleShot (by simp [setFsr_eq, h])]
  simp [setFsr_eq, triggered]

theorem readFsr_continuous {g : BitVec 3} (h : modeOf s.cfg = 0#1) :
    readFsr g k s = finishRead k (decode12 (readValue s))
      (sampled (g != fsrOf s.cfg) (muxOf s.cfg) g s) := by
  have hw : writeNow s = true := by rw [writeNow, State.mode, h]; rfl
  rw [readFsr, hw, rawRead_continuous (by simp [setFsr_eq, h]), readConvStep]
  have hv : readValue (setFsr g true s) = readValue s :=
    readValueAt_congr (by simp [setFsr_eq]) (by simp [setFsr_eq]) 0
  have hs : memRead Config.regConv (setFsr g true s) =
      sampled (g != fsrOf s.cfg) (muxOf s.cfg) g s := by
    unfold memRead
    rw [hv]
    simp [setFsr_eq, sampled, h, emit, Config.regConv, Config.regCfg, bne]
  rw [hv, hs]

theorem readChFsr_singleShot {ch g : BitVec 3} (h : modeOf s.cfg = 1#1) :
    readChFsr ch g k s = triggered k (ch ^^^ 4#3) g s := by
  rw [readChFsr, readCh_singleShot (by simp [setFsr_eq, h])]
  simp [setFsr_eq, triggered]

theorem readChFsr_continuous {ch g : BitVec 3} (h : modeOf s.cfg = 0#1) :
    readChFsr ch g k s = finishRead k (decode12 (readValue s))
      (sampled (ch ^^^ 4#3 != muxOf s.cfg) (ch ^^^ 4#3) g s) := by
  have hv : readValue (setFsr g false s) = readValue s :=
    readValueAt_congr (by simp [setFsr_eq]) (by simp [setFsr_eq]) 0
  have hs : ∀ wrote m, sampled wrote m (fsrOf (setFsr g false s).cfg) (setFsr g false s) =
      sampled wrote m g s := by
    intro wrote m
    unfold sampled
    rw [hv]
    simp [setFsr_eq]
  have hm : muxOf (setFsr g false s).cfg = muxOf s.cfg := by simp [setFsr_eq]
  rw [readChFsr, readCh_continuous (by simp [setFsr_eq, h]), hv, hs, hm]

/-! ## The polls -/

/-- A poll that finds the device ready (R142, T4). -/
theorem pollStep_ready (h : (readValueAt s 0).getLsbD 15 = true) : pollStep k s =
    { s with
      phase := .exec (.readConv k)
      trace := s.trace ++ [.read s.addr Config.regCfg (readValueAt s 0)]
      replies := s.replies.tail
      reads := s.reads + 1 } := by
  rw [pollStep, if_pos (show isReady (readValue s) = true from h)]
  rfl

/-- A poll that does not (R142, T5). -/
theorem pollStep_notReady (h : (readValueAt s 0).getLsbD 15 = false) : pollStep k s =
    { s with
      phase := .pollWait k
      trace := s.trace ++ [.read s.addr Config.regCfg (readValueAt s 0)]
      replies := s.replies.tail
      reads := s.reads + 1 } := by
  have h' : ¬ isReady (readValue s) = true := by
    rw [show isReady (readValue s) = false from h]
    decide
  rw [pollStep, if_neg h']
  rfl

/-- A poll and a delay later the poll is due again. -/
theorem pollDelayStep_eq : pollDelayStep k s =
    { s with phase := .poll k, trace := s.trace ++ [.delay Config.pollDelay] } := rfl

/-- The answers to come, once one was used up. -/
theorem readValueAt_shift {t : State} (hr : t.replies = s.replies.tail)
    (hn : t.reads = s.reads + 1) (n : Nat) : readValueAt t n = readValueAt s (n + 1) := by
  rw [← readValueAt_memRead (s := s) (r := Config.regCfg)]
  exact readValueAt_congr hr hn n

/-- The events of the polls, the first one taken off. -/
theorem pollEvents_succ {t : State} (ha : t.addr = s.addr)
    (h : ∀ j, readValueAt t j = readValueAt s (j + 1)) (n : Nat) : pollEvents s (n + 1) =
      [.read s.addr Config.regCfg (readValueAt s 0), .delay Config.pollDelay] ++
        pollEvents t n := by
  induction n with
  | zero => rfl
  | succ n ih =>
    rw [pollEvents, ih, pollEvents, h n, ha]
    simp

/-! ## Codes and voltages -/

theorem codeOf_eq (r : Half) : (decode12 r).toInt = codeOf r := decode12_toInt r

theorem codeOf_range (r : Half) : -2048 ≤ codeOf r ∧ codeOf r ≤ 2047 := by
  rw [← codeOf_eq]
  exact decode12_range r

/-- The response of a raw read (30_encoding.md R85). -/
theorem signExtend_code (r : Half) : (decode12 r).signExtend 32 = BitVec.ofInt 32 (codeOf r) := by
  rw [BitVec.signExtend, codeOf_eq]

/-- The response of a scaled read at a defined range (43_voltage_scaler.md R163). -/
theorem respondScaled_defined {r : Half} {g : BitVec 3} (hg : g.toNat ≤ 5) :
    respondScaled (decode12 r) g s = responded .ok (microvolts (codeOf r) g) s := by
  obtain ⟨lsb, hl⟩ := Option.isSome_iff_exists.1 (lsbUV_isSome.2 hg)
  have key : ∀ g : BitVec 3, ∀ lsb ∈ lsbUV g,
      lsb = [3000, 2000, 1000, 500, 250, 125].getD g.toNat 0 := by decide
  rw [respondScaled, scaleUV_eq hl, key g lsb hl, codeOf_eq]
  rfl

/-- The response of a scaled read at a range the spec gives no value to (R162). -/
theorem respondScaled_undefined {code : Half} {g : BitVec 3} (hg : 5 < g.toNat) :
    respondScaled code g s =
      responded .ok (Config.undefinedMicrovolts s.frees) { s with frees := s.frees + 1 } := by
  rw [respondScaled, scaleUV_eq_none hg]
  rfl

/-! ## The comparator -/

/-- Step A3 in one equation, where the slot holds the index read at (44_autorange.md R182). -/
theorem adjustRange_eq {slot : Fin 4} {r : Half} {g : BitVec 3} (h : s.ar[slot] = g) :
    adjustRange slot (decode12 r) g s =
      { s with ar := s.ar.set slot.val (nextIndex (codeOf r) g) slot.isLt } := by
  have self : s.ar.set slot.val g slot.isLt = s.ar := by
    rw [← h]
    exact Vector.set_getElem_self slot.isLt
  have hc : comparator (decode12 r) g =
      if codeOf r ≤ 921 ∧ g.toNat < 5 then some (g + 1#3)
      else if 1842 ≤ codeOf r ∧ 0 < g.toNat then some (g - 1#3) else none := by
    simp [comparator, isLow, isHigh, codeOf_eq, Config.thLow, Config.thHigh]
  rw [adjustRange, hc, nextIndex]
  by_cases h1 : codeOf r ≤ 921 ∧ g.toNat < 5
  · rw [if_pos h1, if_pos h1]
    rfl
  · rw [if_neg h1, if_neg h1]
    by_cases h2 : 1842 ≤ codeOf r ∧ 0 < g.toNat
    · rw [if_pos h2, if_pos h2]
      rfl
    · rw [if_neg h2, if_neg h2, self]

/-- An index above 0 has a wider neighbour (43_voltage_scaler.md R164 (e)). -/
theorem pred_toNat {g : BitVec 3} (h : 0 < g.toNat) : (g - 1#3).toNat = g.toNat - 1 := by
  revert g
  decide

theorem nextIndex_le {c : Int} {g : BitVec 3} (h : g.toNat ≤ 5) : (nextIndex c g).toNat ≤ 5 := by
  unfold nextIndex
  split
  · rw [BitVec.toNat_add]
    simp
    omega
  · split
    · rw [BitVec.toNat_sub]
      simp
      omega
    · exact h

/-- Steps A3 to A5 in one equation (44_autorange.md R181). -/
theorem finishAuto_eq {slot : Fin 4} {r : Half} {g : BitVec 3} (h : s.ar[slot] = g)
    (hg : g.toNat ≤ 5) :
    finishAuto slot (decode12 r) g s =
      if codeOf r = 2047 ∧ 0 < g.toNat then
        { s with
          ar := s.ar.set slot.val (nextIndex (codeOf r) g) slot.isLt
          phase := .exec (.start (.vreadar (slotChannel slot))) }
      else responded .ok (microvolts (codeOf r) g)
        { s with ar := s.ar.set slot.val (nextIndex (codeOf r) g) slot.isLt } := by
  simp only [finishAuto, mustReread, isSaturated, codeOf_eq, Config.codeSat, Bool.and_eq_true,
    decide_eq_true_eq, adjustRange_eq h, respondScaled_defined hg]
  rfl

end Sys2Proof.Machine
end

