-- ==== Sys2Proof/Laws/PerInstr.lean ====
section
/-! SUPPORT. Facts stated once per command. -/

namespace Sys2Proof.Laws.RowSelected

/-- The word of a command is selected by the command's own row of R82: its `op` byte names the row
and no must-be-zero bit is set. -/
def Statement (i : Instr) : Prop :=
  Opcode.ofByte (opPart (encode i)) = some i.opcode ∧ i.opcode.selects (encode i) = true

/-- A row selects an assembled word when the operand parts leave the must-be-zero bits clear. -/
theorem of_parts {o : Opcode} {op a ma : BitVec 8} {imm mi : BitVec 16}
    (hop : Opcode.ofByte op = some o) (hp : o.pattern = assemble op 0#8 0#16)
    (hm : o.mask = assemble 0xFF#8 ma mi) (ha : a &&& ma = 0#8) (hi : imm &&& mi = 0#16) :
    Opcode.ofByte (opPart (assemble op a imm)) = some o ∧ o.selects (assemble op a imm) = true := by
  refine ⟨by rw [opPart_assemble, hop], ?_⟩
  simp only [Opcode.selects, beq_iff_eq, hp, hm]
  exact assemble_matches.2 ⟨ha, hi⟩

theorem id_fits (f : Field) : f.id.setWidth 8 &&& 0xF8#8 = 0#8 := by cases f <;> decide

theorem wi_fits (wi : Bool) : wiBits wi &&& 0xFE#8 = 0#8 := by cases wi <;> decide

theorem low3_fits (g : BitVec 3) : g.setWidth 16 &&& 0xFFF8#16 = 0#16 := by
  revert g
  decide

theorem low1_fits (m : BitVec 1) : m.setWidth 16 &&& 0xFFFE#16 = 0#16 := by
  revert m
  decide

theorem low7_fits (x : BusAddr) : x.setWidth 16 &&& 0xFF80#16 = 0#16 := by
  revert x
  decide

theorem g_fits (g : BitVec 3) : gBits g &&& 0xF8FF#16 = 0#16 := by
  revert g
  decide

theorem both_fit (g ch : BitVec 3) : (gBits g ||| ch.setWidth 16) &&& 0xF8F8#16 = 0#16 := by
  revert g ch
  decide

theorem getf (f : Field) : Statement (.getf f) :=
  of_parts (ma := 0xF8#8) (mi := 0xFFFF#16) rfl rfl rfl (id_fits f) (by decide)

theorem setf (f : Field) (v : Half) : Statement (.setf f v) :=
  of_parts (ma := 0xF8#8) (mi := 0#16) rfl rfl rfl (id_fits f) (by simp)

theorem getw : Statement .getw :=
  of_parts (ma := 0xFF#8) (mi := 0xFFFF#16) rfl rfl rfl (by decide) (by decide)

theorem setw (w : Half) : Statement (.setw w) :=
  of_parts (ma := 0xFF#8) (mi := 0#16) rfl rfl rfl (by decide) (by simp)

theorem begin (addr : BusAddr) : Statement (.begin addr) :=
  of_parts (ma := 0xFF#8) (mi := 0xFF80#16) rfl rfl rfl (by decide) (low7_fits addr)

theorem reset : Statement .reset :=
  of_parts (ma := 0xFF#8) (mi := 0xFFFF#16) rfl rfl rfl (by decide) (by decide)

theorem restore : Statement .restore :=
  of_parts (ma := 0xFF#8) (mi := 0xFFFF#16) rfl rfl rfl (by decide) (by decide)

theorem setfsr (g : BitVec 3) (wi : Bool) : Statement (.setfsr g wi) :=
  of_parts (ma := 0xFE#8) (mi := 0xFFF8#16) rfl rfl rfl (wi_fits wi) (low3_fits g)

theorem setmux (m : BitVec 3) (wi : Bool) : Statement (.setmux m wi) :=
  of_parts (ma := 0xFE#8) (mi := 0xFFF8#16) rfl rfl rfl (wi_fits wi) (low3_fits m)

theorem setmode (mode : BitVec 1) (wi : Bool) : Statement (.setmode mode wi) :=
  of_parts (ma := 0xFE#8) (mi := 0xFFFE#16) rfl rfl rfl (wi_fits wi)
    (low1_fits mode)

theorem setrate (d : BitVec 3) (wi : Bool) : Statement (.setrate d wi) :=
  of_parts (ma := 0xFE#8) (mi := 0xFFF8#16) rfl rfl rfl (wi_fits wi) (low3_fits d)

theorem rawread : Statement .rawread :=
  of_parts (ma := 0xFF#8) (mi := 0xFFFF#16) rfl rfl rfl (by decide) (by decide)

theorem readch (ch : BitVec 3) : Statement (.readch ch) :=
  of_parts (ma := 0xFF#8) (mi := 0xFFF8#16) rfl rfl rfl (by decide) (low3_fits ch)

theorem readfsr (g : BitVec 3) : Statement (.readfsr g) :=
  of_parts (ma := 0xFF#8) (mi := 0xF8FF#16) rfl rfl rfl (by decide) (g_fits g)

theorem readchfsr (ch g : BitVec 3) : Statement (.readchfsr ch g) :=
  of_parts (ma := 0xFF#8) (mi := 0xF8F8#16) rfl rfl rfl (by decide) (both_fit g ch)

theorem vread (ch : BitVec 3) : Statement (.vread ch) :=
  of_parts (ma := 0xFF#8) (mi := 0xFFF8#16) rfl rfl rfl (by decide) (low3_fits ch)

theorem vreadar (ch : BitVec 3) : Statement (.vreadar ch) :=
  of_parts (ma := 0xFF#8) (mi := 0xFFF8#16) rfl rfl rfl (by decide) (low3_fits ch)

theorem getfrv (g : BitVec 3) : Statement (.getfrv g) :=
  of_parts (ma := 0xFF#8) (mi := 0xF8FF#16) rfl rfl rfl (by decide) (g_fits g)

theorem getres (g : BitVec 3) : Statement (.getres g) :=
  of_parts (ma := 0xFF#8) (mi := 0xF8FF#16) rfl rfl rfl (by decide) (g_fits g)

end Sys2Proof.Laws.RowSelected

/-- `RowSelected` of every command. -/
theorem Sys2Proof.Laws.rowSelected_all (i : Sys2Proof.Instr) :
    Sys2Proof.Laws.RowSelected.Statement i :=
  match i with
  | .getf f => RowSelected.getf f
  | .setf f v => RowSelected.setf f v
  | .getw => RowSelected.getw
  | .setw w => RowSelected.setw w
  | .begin addr => RowSelected.begin addr
  | .reset => RowSelected.reset
  | .restore => RowSelected.restore
  | .setfsr g wi => RowSelected.setfsr g wi
  | .setmux m wi => RowSelected.setmux m wi
  | .setmode mode wi => RowSelected.setmode mode wi
  | .setrate d wi => RowSelected.setrate d wi
  | .rawread => RowSelected.rawread
  | .readch ch => RowSelected.readch ch
  | .readfsr g => RowSelected.readfsr g
  | .readchfsr ch g => RowSelected.readchfsr ch g
  | .vread ch => RowSelected.vread ch
  | .vreadar ch => RowSelected.vreadar ch
  | .getfrv g => RowSelected.getfrv g
  | .getres g => RowSelected.getres g
end

