-- ==== Sys2Proof/Laws/Step.lean ====
section
/-! SUPPORT. What one step does in each phase, said once, and the composition of runs. -/

namespace Sys2Proof.Machine

variable {s t u : State} {k : Resume}

theorem step_wait (hp : s.phase = .idle) (hc : s.cmds = []) : step s = .next s := by
  simp [step, hp, offeredWord, hc]

theorem step_illegal {c : Word} {rest : List Word} {r : Reject} (hp : s.phase = .idle)
    (hc : s.cmds = c :: rest) (hd : decode c = .error r) : step s = .next (refuseWord s) := by
  simp [step, hp, offeredWord, hc, hd]

theorem step_command {c : Word} {rest : List Word} {i : Instr} (hp : s.phase = .idle)
    (hc : s.cmds = c :: rest) (hd : decode c = .ok i) : step s = exec i (acceptCommand i s) := by
  simp [step, hp, offeredWord, hc, hd]

theorem step_start {i : Instr} (hp : s.phase = .exec (.start i)) : step s = exec i s := by
  simp [step, hp]

theorem step_readBack (hp : s.phase = .exec .readBack) : step s = .next (readBackStep s) := by
  simp [step, hp]

theorem step_readConv (hp : s.phase = .exec (.readConv k)) :
    step s = .next (readConvStep k s) := by
  simp [step, hp]

theorem step_settle (hp : s.phase = .settle) : step s = .next (settleStep s) := by
  simp [step, hp]

theorem step_poll (hp : s.phase = .poll k) : step s = .next (pollStep k s) := by
  simp [step, hp]

theorem step_pollWait (hp : s.phase = .pollWait k) : step s = .next (pollDelayStep k s) := by
  simp [step, hp]

/-- What a command answers, one equation per command. -/
theorem exec_eq (i : Instr) (s : State) : exec i s = .next (
    match i with
    | .getf f => respond .ok ((getField f s.cfg).setWidth 32) s
    | .setf f v =>
      if f = .rsvd then raiseIllegal s else respond .ok 0#32 (setCfg (setField f v s.cfg) s)
    | .getw => respond .ok (s.cfg.setWidth 32) s
    | .setw w => respond .ok 0#32 (setCfg w s)
    | .begin addr => beginAt addr s
    | .reset => respond .ok 0#32 (resetCfg s)
    | .restore => respond .ok 0#32 (memWrite Config.regCfg (s.cfg &&& 0x7FFF#16) s)
    | .setfsr g wi => respond .ok 0#32 (setFsr g wi s)
    | .setmux m wi => respond .ok 0#32 (setMux m wi s)
    | .setmode mode wi => respond .ok 0#32 (setMode mode wi s)
    | .setrate d wi => respond .ok 0#32 (setRate d wi s)
    | .rawread => rawRead .code s
    | .readch ch => readCh ch .code s
    | .readfsr g => readFsr g .code s
    | .readchfsr ch g => readChFsr ch g .code s
    | .vread ch =>
      match autoSlot ch with
      | none => respond .ok 0#32 s
      | some _ => readCh ch .volt s
    | .vreadar ch =>
      match autoSlot ch with
      | none => respond .ok 0#32 s
      | some slot => autoPass slot s
    | .getfrv g => respondTable (fullRangeMV g) s
    | .getres g => respondTable (lsbUV g) s) := by
  cases i <;> rfl

/-- VREADAR of a slot's own channel is a pass of that slot (44_autorange.md R181). -/
theorem exec_vreadar_slot (i : Fin 4) (s : State) :
    exec (.vreadar (slotChannel i)) s = .next (autoPass i s) := by
  simp only [exec_eq, autoSlot_slotChannel]

/-- One pass in single-shot mode goes to poll (R181). -/
theorem autoPass_singleShot {i : Fin 4} (h : modeOf s.cfg = 1#1) :
    autoPass i s = triggered (.auto i s.ar[i]) (slotChannel i ^^^ 4#3) s.ar[i] s := by
  rw [autoPass, readChFsr_singleShot h]

/-- One pass in continuous mode (R181). -/
theorem autoPass_continuous {i : Fin 4} (h : modeOf s.cfg = 0#1) :
    autoPass i s = finishAuto i (decode12 (readValue s)) s.ar[i]
      (sampled (slotChannel i ^^^ 4#3 != muxOf s.cfg) (slotChannel i ^^^ 4#3) s.ar[i] s) := by
  rw [autoPass, readChFsr_continuous h]
  rfl

/-! ## The commands by kind -/

/-- The read commands: what they do with the code, and the multiplexer code and range they read at
(R146 to R149, R165, R181). -/
def readPlan (i : Instr) (s : State) : Option (Resume × BitVec 3 × BitVec 3) :=
  match i with
  | .rawread => some (.code, muxOf s.cfg, fsrOf s.cfg)
  | .readch ch => some (.code, ch ^^^ 4#3, fsrOf s.cfg)
  | .readfsr g => some (.code, muxOf s.cfg, g)
  | .readchfsr ch g => some (.code, ch ^^^ 4#3, g)
  | .vread ch =>
    match autoSlot ch with
    | none => none
    | some _ => some (.volt, ch ^^^ 4#3, fsrOf s.cfg)
  | .vreadar ch =>
    match autoSlot ch with
    | none => none
    | some slot => some (.auto slot s.ar[slot], slotChannel slot ^^^ 4#3, s.ar[slot])
  | _ => none

/-- A read command in single-shot mode is its trigger (42_conversion.md R140, R141). -/
theorem exec_read_singleShot {i : Instr} {m g : BitVec 3} (hp : readPlan i s = some (k, m, g))
    (h : modeOf s.cfg = 1#1) : exec i s = .next (triggered k m g s) := by
  cases i <;> simp only [readPlan] at hp <;> rw [exec_eq] <;> first
    | (split at hp <;> cases hp; simp only [*, readCh_singleShot h, autoPass_singleShot h])
    | (cases hp; simp only [rawRead_singleShot h, readCh_singleShot h, readFsr_singleShot h,
        readChFsr_singleShot h])
    | cases hp

/-- A read command in continuous mode is one sample and its end (R140). -/
theorem exec_read_continuous {i : Instr} {m g : BitVec 3} (hp : readPlan i s = some (k, m, g))
    (h : modeOf s.cfg = 0#1) : ∃ wrote, exec i s =
      .next (finishRead k (decode12 (readValue s)) (sampled wrote m g s)) := by
  have raw : sampled false (muxOf s.cfg) (fsrOf s.cfg) s = memRead Config.regConv s := by
    simp only [sampled, ← h, pack_fields]
    simp [memRead, emit, Config.regConv]
  cases i <;> simp only [readPlan] at hp <;> rw [exec_eq] <;> first
    | (split at hp <;> cases hp
       simp only [*, readCh_continuous h, autoPass_continuous h]
       exact ⟨_, rfl⟩)
    | (cases hp
       simp only [readCh_continuous h, readFsr_continuous h, readChFsr_continuous h]
       exact ⟨_, rfl⟩)
    | (cases hp
       simp only [rawRead_continuous h, readConvStep, ← raw]
       exact ⟨_, rfl⟩)
    | cases hp

/-- Every other command but BEGIN responds at once. It makes at most one configuration write, of the
whole cache, or for RESTORE of the cache with bit 15 clear; it changes no register but `CFG`. -/
theorem exec_immediate {i : Instr} (hp : readPlan i s = none) (hb : ∀ a, i ≠ .begin a) :
    ∃ c es st v, exec i s = .next { s with
        cfg := c, trace := s.trace ++ es, phase := .idle, status := st, value := v } ∧
      (es = [] ∨ es = [.write s.addr Config.regCfg c] ∧ i ≠ .restore ∨
        i = .restore ∧ c = s.cfg ∧ es = [.write s.addr Config.regCfg (c &&& 0x7FFF#16)]) := by
  have same : ∀ st v, ∃ c es st' v', respond st v s = { s with
        cfg := c, trace := s.trace ++ es, phase := .idle, status := st', value := v' } ∧
      (es = [] ∨ es = [.write s.addr Config.regCfg c] ∧ i ≠ .restore ∨
        i = .restore ∧ c = s.cfg ∧ es = [.write s.addr Config.regCfg (c &&& 0x7FFF#16)]) :=
    fun st v => ⟨s.cfg, [], st, v, by simp [respond], .inl rfl⟩
  have set : ∀ (wi : Bool) c, i ≠ .restore → ∃ c' es st v,
      respond .ok 0#32 (writeIf wi (setCfg c s)) = { s with
        cfg := c', trace := s.trace ++ es, phase := .idle, status := st, value := v } ∧
      (es = [] ∨ es = [.write s.addr Config.regCfg c'] ∧ i ≠ .restore ∨
        i = .restore ∧ c' = s.cfg ∧ es = [.write s.addr Config.regCfg (c' &&& 0x7FFF#16)]) := by
    intro wi c hr
    refine ⟨c, if wi then [.write s.addr Config.regCfg c] else [], .ok, 0#32, ?_, ?_⟩
    · simp [writeIf_eq, respond, setCfg]
    · cases wi <;> simp [hr]
  rw [exec_eq]
  simp only [Host.Outcome.next.injEq]
  cases i with
  | getf f => exact same _ _
  | setf f v =>
    simp only
    split
    · exact same _ _
    · exact set false _ (by simp)
  | getw => exact same _ _
  | setw w => exact set false _ (by simp)
  | begin a => exact absurd rfl (hb a)
  | reset => exact set true _ (by simp)
  | restore => exact ⟨s.cfg, _, .ok, 0#32, rfl, .inr (.inr ⟨rfl, rfl, rfl⟩)⟩
  | setfsr g wi =>
    simp only [setFsr]
    split
    · exact same _ _
    · exact set wi _ (by simp)
  | setmux m wi =>
    simp only [setMux]
    split
    · exact same _ _
    · exact set wi _ (by simp)
  | setmode mode wi => exact set wi _ (by simp)
  | setrate d wi => exact set wi _ (by simp)
  | rawread => cases hp
  | readch ch => cases hp
  | readfsr g => cases hp
  | readchfsr ch g => cases hp
  | vread ch =>
    simp only [readPlan] at hp
    split at hp
    · rename_i hs
      simp only [hs]
      exact same _ _
    · cases hp
  | vreadar ch =>
    simp only [readPlan] at hp
    split at hp
    · rename_i hs
      simp only [hs]
      exact same _ _
    · cases hp
  | getfrv g =>
    simp only [respondTable]
    split
    · exact same _ _
    · exact same _ _
  | getres g =>
    simp only [respondTable]
    split
    · exact same _ _
    · exact same _ _

/-- Every command is one of four: BEGIN, a read command's trigger, a read command's sample and end,
or an immediate command. -/
theorem exec_cases {i : Instr} (h : exec i s = .next t) :
    (∃ a, i = .begin a ∧ t = beginAt a s) ∨
    (∃ k m g, readPlan i s = some (k, m, g) ∧ modeOf s.cfg = 1#1 ∧ t = triggered k m g s) ∨
    (∃ k m g wrote, readPlan i s = some (k, m, g) ∧ modeOf s.cfg = 0#1 ∧
      t = finishRead k (decode12 (readValue s)) (sampled wrote m g s)) ∨
    (readPlan i s = none ∧ (∀ a, i ≠ .begin a) ∧ ∃ c es st v, t = { s with
        cfg := c, trace := s.trace ++ es, phase := .idle, status := st, value := v } ∧
      (es = [] ∨ es = [.write s.addr Config.regCfg c] ∧ i ≠ .restore ∨
        i = .restore ∧ c = s.cfg ∧ es = [.write s.addr Config.regCfg (c &&& 0x7FFF#16)])) := by
  by_cases hb : ∃ a, i = .begin a
  · obtain ⟨a, rfl⟩ := hb
    rw [exec_eq] at h
    cases h
    exact .inl ⟨a, rfl, rfl⟩
  · push Not at hb
    rcases hr : readPlan i s with _ | ⟨k, m, g⟩
    · obtain ⟨c, es, st, v, h1, h2⟩ := exec_immediate hr hb
      rw [h1] at h
      cases h
      exact .inr (.inr (.inr ⟨rfl, hb, c, es, st, v, rfl, h2⟩))
    · rcases mode_cases s.cfg with hm | hm
      · obtain ⟨w, h1⟩ := exec_read_continuous hr hm
        rw [h1] at h
        cases h
        exact .inr (.inr (.inl ⟨k, m, g, w, rfl, hm, rfl⟩))
      · rw [exec_read_singleShot hr hm] at h
        cases h
        exact .inr (.inl ⟨k, m, g, rfl, hm, rfl⟩)

/-- The plan of a read that ends in the comparator is VREADAR's (44_autorange.md R181). -/
theorem readPlan_auto {i : Instr} {slot : Fin 4} {g g' m : BitVec 3}
    (h : readPlan i s = some (.auto slot g, m, g')) : i = .vreadar (slotChannel slot) ∧
      g = s.ar[slot] ∧ m = slotChannel slot ^^^ 4#3 ∧ g' = s.ar[slot] := by
  cases i <;> simp only [readPlan] at h <;> first
    | (split at h <;> cases h
       rename_i hs
       exact ⟨by rw [autoSlot_eq_some hs], rfl, rfl, rfl⟩)
    | (split at h <;> cases h)
    | cases h

/-- The plan of VREAD selects a single-ended input (43_voltage_scaler.md R165). -/
theorem readPlan_volt {i : Instr} {g m : BitVec 3} (h : readPlan i s = some (.volt, m, g)) :
    4 ≤ m.toNat := by
  cases i with
  | vread ch =>
    simp only [readPlan] at h
    split at h
    · cases h
    · rename_i hs
      cases h
      have key : ∀ i : Fin 4, 4 ≤ (BitVec.ofNat 3 (i.val + 4)).toNat := by decide
      rw [autoSlot_eq_some hs, slotChannel_mux]
      exact key _
  | vreadar ch =>
    simp only [readPlan] at h
    split at h <;> cases h
  | _ => cases h

/-- What ending a read command leaves alone (R144, R165, R181). -/
theorem finishRead_frame (k : Resume) (code : Half) (s : State) :
    (finishRead k code s).cfg = s.cfg ∧ (finishRead k code s).addr = s.addr ∧
    (finishRead k code s).trace = s.trace ∧ (finishRead k code s).cmds = s.cmds ∧
    ∀ j : Fin 4, (finishRead k code s).ar[j] ≠ s.ar[j] → ∃ g, k = .auto j g := by
  have other : ∀ {slot j : Fin 4} {g' : BitVec 3},
      (s.ar.set slot.val g' slot.isLt)[j] ≠ s.ar[j] → slot = j := by
    intro slot j g' h
    by_contra e
    exact h (Vector.getElem_set_ne _ _ fun h => e (Fin.ext h))
  rcases finishRead_cases k code s with ⟨v, f, ar, h, hor⟩ | ⟨slot, g, ar, hk, h, hor⟩ <;>
    rw [h] <;> refine ⟨rfl, rfl, rfl, rfl, fun j hj => ?_⟩
  · rcases hor with rfl | ⟨slot, g, hk, g', rfl⟩
    · exact absurd rfl hj
    · cases other hj
      exact ⟨g, hk⟩
  · rcases hor with rfl | ⟨g', rfl⟩
    · exact absurd rfl hj
    · cases other hj
      exact ⟨g, hk⟩

/-! ## Runs -/

theorem Reaches.refl : Reaches 0 s s := rfl

theorem Reaches.cons {n : Nat} (h : step s = .next t) (hr : Reaches n t u) :
    Reaches (n + 1) s u := ⟨t, h, hr⟩

theorem Reaches.one (h : step s = .next t) : Reaches 1 s t := .cons h .refl

theorem Reaches.trans {m n : Nat} (h1 : Reaches m s t) (h2 : Reaches n t u) :
    Reaches (m + n) s u := by
  induction m generalizing s with
  | zero =>
    cases h1
    simpa using h2
  | succ m ih =>
    obtain ⟨v, hv, hr⟩ := h1
    rw [Nat.add_right_comm]
    exact ⟨v, hv, ih hr⟩

/-! ## The last word sent -/

@[simp] theorem lastSent_nil : lastSent [] = none := rfl

@[simp] theorem lastSent_append (tr : List Event) (e : Event) :
    lastSent (tr ++ [e]) = noteSent (lastSent tr) e := by
  simp [lastSent]

end Sys2Proof.Machine
end

