-- ==== Sys2Proof/Tests/Slice0.lean ====
section
/-! SUPPORT. Tests: expected results are the spec's (95_test_vectors.md and the tables of the section
files; the vector is named at each), and for every statement with hypotheses a state that meets
them (the theorems named `witness_…`). -/

namespace Sys2Proof.Tests

open Sys2Proof.Machine

/-- A block with this cache, these gain indices and these device answers to come. -/
def board (cfg : Half) (ar : Vector (BitVec 3) 4) (replies : List Reply) : State :=
  { State.reset with cfg := cfg, ar := ar, replies := replies }

/-- The device answers this value. -/
def ans (v : Half) : Reply := .two (v.extractLsb' 8 8) (v.extractLsb' 0 8)

/-- The block with the reset cache and every gain index 0. -/
def fresh (replies : List Reply) : State := board 0x8583#16 #v[0#3, 0#3, 0#3, 0#3] replies

/-- The outcome is a next state with this property. -/
def nextIs (p : State → Bool) (o : Host.Outcome State Fault Refusal) : Bool :=
  match o with
  | .next t => p t
  | .fault _ => false
  | .refused _ => false

/-- A response, the cache and the events. -/
def gives (st : Status) (v : Word) (cfg : Half) (es : List Event) (t : State) : Bool :=
  t.phase == .idle && t.status == st && t.value == v && t.cfg == cfg && t.trace == es

/-- A poll is due, with this cache, after these events. -/
def polls (cfg : Half) (es : List Event) (t : State) : Bool :=
  phaseName t.phase == 3 && t.cfg == cfg && t.trace == es

/-! ## Ill-formed terms are refused (30_encoding.md R83) -/

theorem test_wf_setf_rsvd : (Instr.setf .rsvd 3#16).wellFormed = false := by decide
theorem test_wf_setf_dr : (Instr.setf .dr 3#16).wellFormed = true := by decide
theorem test_wf_getf_rsvd : (Instr.getf .rsvd).wellFormed = true := by decide
theorem test_wf_getfrv : (Instr.getfrv 6#3).wellFormed = false ∧ (Instr.getfrv 7#3).wellFormed = false ∧
    (Instr.getfrv 5#3).wellFormed = true := by decide
theorem test_wf_getres : (Instr.getres 6#3).wellFormed = false ∧ (Instr.getres 7#3).wellFormed = false ∧
    (Instr.getres 5#3).wellFormed = true := by decide

/-! ## Decoding: words from 95_test_vectors.md section 2.1 and 30_encoding.md R91, one row at least
for each command. READCHFSR and SETMODE are written out bit by bit from R78, R79. -/

theorem test_decode_getf : decode 0x01040000#32 = .ok (.getf .dr) := by decide
theorem test_decode_getf_rsvd : decode 0x01050000#32 = .ok (.getf .rsvd) := by decide
theorem test_decode_setf : decode 0x02020005#32 = .ok (.setf .fsr 5#16) := by decide
theorem test_decode_getw : decode 0x03000000#32 = .ok .getw := by decide
theorem test_decode_setw : decode 0x0400FFFF#32 = .ok (.setw 0xFFFF#16) := by decide
theorem test_decode_begin : decode 0x10000049#32 = .ok (.begin 0x49#7) := by decide
theorem test_decode_reset : decode 0x11000000#32 = .ok .reset := by decide
theorem test_decode_restore : decode 0x12000000#32 = .ok .restore := by decide
theorem test_decode_setfsr : decode 0x20010006#32 = .ok (.setfsr 6#3 true) := by decide
theorem test_decode_setmux : decode 0x21010000#32 = .ok (.setmux 0#3 true) := by decide
theorem test_decode_setmode :
    decode 0b00100010_00000000_0000000000000001#32 = .ok (.setmode 1#1 false) := by decide
theorem test_decode_setrate : decode 0x23010003#32 = .ok (.setrate 3#3 true) := by decide
theorem test_decode_rawread : decode 0x30000000#32 = .ok .rawread := by decide
theorem test_decode_readch : decode 0x31000007#32 = .ok (.readch 7#3) := by decide
theorem test_decode_readfsr : decode 0x32000300#32 = .ok (.readfsr 3#3) := by decide
theorem test_decode_readchfsr :
    decode 0b00110011_00000000_00000100_00000010#32 = .ok (.readchfsr 2#3 4#3) := by decide
theorem test_decode_vread : decode 0x40000003#32 = .ok (.vread 3#3) := by decide
theorem test_decode_vreadar : decode 0x41000001#32 = .ok (.vreadar 1#3) := by decide
theorem test_decode_getfrv : decode 0x42000500#32 = .ok (.getfrv 5#3) := by decide
theorem test_decode_getres : decode 0x43000100#32 = .ok (.getres 1#3) := by decide

/-- V-IL1 to V-IL4: no such command. -/
theorem test_illegal_op : decode 0x00000000#32 = .error .noSuchCommand ∧
    decode 0xFFFFFFFF#32 = .error .noSuchCommand ∧ decode 0x05000000#32 = .error .noSuchCommand ∧
    decode 0x44000000#32 = .error .noSuchCommand := by decide
/-- V-IL5 to V-IL12: must-be-zero bits. -/
theorem test_illegal_mbz : decode 0x31000008#32 = .error .mustBeZeroBitSet ∧
    decode 0x03000001#32 = .error .mustBeZeroBitSet ∧
    decode 0x30010000#32 = .error .mustBeZeroBitSet ∧
    decode 0x10000080#32 = .error .mustBeZeroBitSet ∧
    decode 0x20020001#32 = .error .mustBeZeroBitSet ∧
    decode 0x22000002#32 = .error .mustBeZeroBitSet ∧
    decode 0x40000100#32 = .error .mustBeZeroBitSet ∧
    decode 0x01000001#32 = .error .mustBeZeroBitSet := by decide
/-- V-IL13 to V-IL17. -/
theorem test_illegal_fields : decode 0x01060000#32 = .error .noSuchField ∧
    decode 0x01070000#32 = .error .noSuchField ∧ decode 0x02050003#32 = .error .reservedField ∧
    decode 0x02060000#32 = .error .noSuchField ∧ decode 0x02070000#32 = .error .noSuchField := by
  decide
theorem test_illegal_ranges : decode 0x42000600#32 = .error .noSuchRange ∧
    decode 0x42000700#32 = .error .noSuchRange ∧
    decode 0x43000600#32 = .error .noSuchRange ∧
    decode 0x43000700#32 = .error .noSuchRange := by decide

theorem test_table_word : decodeTableWord 32 0x33000402 = some (.readchfsr 2#3 4#3) ∧
    decodeTableWord 32 0x42000700 = none := by decide

/-- P1, step 1, as the first command after reset (command port, R32). -/
theorem test_fetch : nextIs (fun t => t.phase == .settle && t.cmds == [])
    (step (State.reset.withFetchWord 32 0x10000048)) = true := by decide

/-! ## 40_config_register.md -/

/-- V-CF5. -/
theorem test_getf : nextIs (gives .ok 4#32 0x8583#16 []) (exec (.getf .dr) (fresh [])) = true := by
  decide
/-- V-CF16, second part. -/
theorem test_getf_rsvd : nextIs (gives .ok 31#32 0xFFFF#16 [])
    (exec (.getf .rsvd) (board 0xFFFF#16 #v[0, 0, 0, 0] [])) = true := by decide
/-- V-CF18: a value wider than its field spills. -/
theorem test_setf_spill : nextIs (gives .ok 0#32 0x8503#16 [])
    (exec (.setf .dr 8#16) (board 0x8483#16 #v[0, 0, 0, 0] [])) = true := by decide
/-- V-CF20. -/
theorem test_setf_lost : nextIs (gives .ok 0#32 0x0583#16 []) (exec (.setf .os 2#16) (fresh [])) = true := by
  decide
/-- V-CF7. -/
theorem test_getw : nextIs (gives .ok 0x8583#32 0x8583#16 []) (exec .getw (fresh [])) = true := by decide
/-- V-CF15. -/
theorem test_setw : nextIs (gives .ok 0#32 0x0583#16 []) (exec (.setw 0x0583#16) (fresh [])) = true := by
  decide

/-! ## 41_controller_setup.md -/

/-- V-SU1, its first step: the write, at the new address. -/
theorem test_begin : nextIs (fun t => t.addr == 0x49#7 && t.cfg == 0x8583#16 && t.phase == .settle &&
      t.trace == [.write 0x49#7 0x01#8 0x8583#16] && t.ar == #v[1#3, 2#3, 3#3, 4#3])
    (exec (.begin 0x49#7) (board 0xD283#16 #v[1, 2, 3, 4] [])) = true := by decide
/-- V-SU2: the read-back of a device that is still converting. -/
theorem test_begin_absent : nextIs
    (gives .ok 0#32 0x8583#16 [.delay 10, .read 0x48#7 0x01#8 0x0583#16])
    (step { fresh [ans 0x0583#16] with phase := .exec .readBack, trace := [.delay 10] }) = true := by
  decide
/-- V-SU4. -/
theorem test_reset : nextIs (gives .ok 0#32 0x8583#16 [.write 0x48#7 0x01#8 0x8583#16])
    (exec .reset (board 0xD283#16 #v[0, 0, 0, 0] [])) = true := by decide
/-- V-SU5. -/
theorem test_restore : nextIs (gives .ok 0#32 0x8583#16 [.write 0x48#7 0x01#8 0x0583#16])
    (exec .restore (fresh [])) = true := by decide
/-- V-SU11: the range is stored unchecked. -/
theorem test_setfsr : nextIs (gives .ok 0#32 0x8D83#16 [.write 0x48#7 0x01#8 0x8D83#16])
    (exec (.setfsr 6#3 true) (fresh [])) = true := by decide
/-- V-SU9: no write where the range is already in the cache. -/
theorem test_setfsr_same : nextIs (gives .ok 0#32 0x8383#16 [])
    (exec (.setfsr 1#3 true) (board 0x8383#16 #v[0, 0, 0, 0] [])) = true := by decide
/-- V-SU12. -/
theorem test_setmux : nextIs (gives .ok 0#32 0xC583#16 []) (exec (.setmux 4#3 false) (fresh [])) = true := by
  decide
/-- V-SU13. -/
theorem test_setmux_same : nextIs (gives .ok 0#32 0x8583#16 []) (exec (.setmux 0#3 true) (fresh [])) = true := by
  decide
/-- V-SU15: no shortcut. -/
theorem test_setmode : nextIs (gives .ok 0#32 0x8483#16 [.write 0x48#7 0x01#8 0x8483#16])
    (exec (.setmode 0#1 true) (board 0x8483#16 #v[0, 0, 0, 0] [])) = true := by decide
/-- V-SU17: the rate bits are ORed in. -/
theorem test_setrate : nextIs (gives .ok 0#32 0x85E3#16 [.write 0x48#7 0x01#8 0x85E3#16])
    (exec (.setrate 3#3 true) (fresh [])) = true := by decide
/-- V-SU18. -/
theorem test_setrate_zero : nextIs (gives .ok 0#32 0x8583#16 [.write 0x48#7 0x01#8 0x8583#16])
    (exec (.setrate 0#3 true) (fresh [])) = true := by decide

/-! ## 42_conversion.md -/

/-- Section 2.4 of 95_test_vectors.md. -/
theorem test_decode12 : [0x0000#16, 0x000F#16, 0x0010#16, 0x3990#16, 0x39A0#16, 0x7320#16, 0x7FFF#16,
    0x8000#16, 0x800F#16, 0xC180#16, 0xFFFF#16].map (fun r => (decode12 r).toInt) =
    [0, 0, 1, 921, 922, 1842, 2047, -2048, -2048, -1000, -1] := by decide
/-- S10. -/
theorem test_chanToMux : [0#3, 1#3, 2#3, 3#3, 4#3, 5#3, 6#3, 7#3].map chanToMux =
    [4#3, 5#3, 6#3, 7#3, 0#3, 1#3, 2#3, 3#3] := by decide
/-- V-RD13: the start bit is set again. -/
theorem test_rawread : nextIs (polls 0x8583#16 [.write 0x48#7 0x01#8 0x8583#16])
    (exec .rawread (board 0x0583#16 #v[0, 0, 0, 0] [])) = true := by decide
/-- V-RD2. -/
theorem test_rawread_continuous : nextIs (gives .ok 2047#32 0x8483#16 [.read 0x48#7 0x00#8 0x7FF0#16])
    (exec .rawread (board 0x8483#16 #v[0, 0, 0, 0] [ans 0x7FF0#16])) = true := by decide
/-- V-RD5. -/
theorem test_readch : nextIs (polls 0x8583#16 [.write 0x48#7 0x01#8 0x8583#16])
    (exec (.readch 4#3) (board 0xC583#16 #v[0, 0, 0, 0] [])) = true := by decide
/-- V-RD7. -/
theorem test_readch_continuous : nextIs (gives .ok 291#32 0xD483#16
      [.write 0x48#7 0x01#8 0xD483#16, .read 0x48#7 0x00#8 0x1230#16])
    (exec (.readch 1#3) (board 0xC483#16 #v[0, 0, 0, 0] [ans 0x1230#16])) = true := by decide
/-- V-RD8. -/
theorem test_readfsr : nextIs (polls 0x8783#16 [.write 0x48#7 0x01#8 0x8783#16])
    (exec (.readfsr 3#3) (fresh [])) = true := by decide
/-- V-RD9. -/
theorem test_readfsr_continuous : nextIs (gives .ok 1#32 0x8083#16
      [.write 0x48#7 0x01#8 0x8083#16, .read 0x48#7 0x00#8 0x0010#16])
    (exec (.readfsr 0#3) (board 0x8483#16 #v[0, 0, 0, 0] [ans 0x0010#16])) = true := by decide
/-- V-RD10. -/
theorem test_readchfsr : nextIs (polls 0xE983#16 [.write 0x48#7 0x01#8 0xE983#16])
    (exec (.readchfsr 2#3 4#3) (fresh [])) = true := by decide
/-- V-RD11: no write where only the range changes. -/
theorem test_readchfsr_continuous : nextIs (gives .ok 1000#32 0xC683#16 [.read 0x48#7 0x00#8 0x3E80#16])
    (exec (.readchfsr 0#3 3#3) (board 0xC483#16 #v[0, 0, 0, 0] [ans 0x3E80#16])) = true := by decide
/-- V-RD1, its first poll, and V-RD3's last step (a negative code). -/
theorem test_poll_busy : nextIs (fun t => t.phase == .pollWait .code)
    (step { fresh [ans 0x0583#16] with phase := .poll .code }) = true := by decide
theorem test_sample : nextIs (gives .ok 0xFFFFFC18#32 0xC583#16 [.read 0x48#7 0x00#8 0xC180#16])
    (step { board 0xC583#16 #v[0, 0, 0, 0] [ans 0xC180#16] with phase := .exec (.readConv .code) }) =
      true := by decide

/-! ## 43_voltage_scaler.md -/

/-- S1, S2. -/
theorem test_getfrv : nextIs (gives .ok 6144#32 0x8583#16 []) (exec (.getfrv 0#3) (fresh [])) = true ∧
    nextIs (gives .ok 256#32 0x8583#16 []) (exec (.getfrv 5#3) (fresh [])) = true := by decide
theorem test_getres : nextIs (gives .ok 3000#32 0x8583#16 []) (exec (.getres 0#3) (fresh [])) = true ∧
    nextIs (gives .ok 125#32 0x8583#16 []) (exec (.getres 5#3) (fresh [])) = true := by decide
/-- Section 2.6 of 95_test_vectors.md. -/
theorem test_scale : scaleUV 1000#16 2#3 = some 1000000 ∧ scaleUV 2047#16 0#3 = some 6141000 ∧
    scaleUV (-2048#16) 0#3 = some (-6144000) ∧ scaleUV (-1#16) 5#3 = some (-125) ∧
    scaleUV 921#16 3#3 = some 460500 ∧ scaleUV (-1000#16) 1#3 = some (-2000000) := by decide
/-- V-SC2, its first and its last step. -/
theorem test_vread : nextIs (polls 0xF383#16 [.write 0x48#7 0x01#8 0xF383#16])
    (exec (.vread 3#3) (board 0x8383#16 #v[0, 0, 0, 0] [])) = true := by decide
theorem test_vread_value : nextIs (gives .ok 0xFFE17B80#32 0xF383#16 [.read 0x48#7 0x00#8 0xC180#16])
    (step { board 0xF383#16 #v[0, 0, 0, 0] [ans 0xC180#16] with phase := .exec (.readConv .volt) }) =
      true := by decide

/-! ## 44_autorange.md -/

/-- Section 2.7 of 95_test_vectors.md: the comparator, and whether the command reads again. -/
theorem test_comparator : comparator 921#16 2#3 = some 3#3 ∧ comparator 922#16 2#3 = none ∧
    comparator 1841#16 2#3 = none ∧ comparator 1842#16 2#3 = some 1#3 ∧
    comparator 2047#16 0#3 = none ∧ comparator 921#16 5#3 = none ∧
    comparator (-2048#16) 3#3 = some 4#3 ∧ mustReread 2047#16 2#3 = true ∧
    mustReread 2047#16 0#3 = false ∧ mustReread 2046#16 1#3 = false := by decide
/-- V-AR4: the trigger at index 1. -/
theorem test_vreadar : nextIs (polls 0xC383#16 [.write 0x48#7 0x01#8 0xC383#16])
    (exec (.vreadar 0#3) (board 0x8583#16 #v[1, 0, 0, 0] [])) = true := by decide
/-- V-AR7. -/
theorem test_vreadar_continuous : nextIs (fun t => gives .ok 500000#32 0xC683#16
      [.read 0x48#7 0x00#8 0x3E80#16] t && t.ar == #v[3#3, 0#3, 0#3, 0#3])
    (exec (.vreadar 0#3) (board 0xC483#16 #v[3, 0, 0, 0] [ans 0x3E80#16])) = true := by decide
/-- V-AR4: the saturated read at index 1 is not responded; the command starts again at index 0. -/
theorem test_vreadar_saturated : nextIs (fun t => t.phase == .exec (.start (.vreadar 0#3)) &&
      t.ar == #v[0#3, 0#3, 0#3, 0#3])
    (step { board 0xC383#16 #v[1, 0, 0, 0] [ans 0x7FF0#16] with
      phase := .exec (.readConv (.auto 0 1#3)) }) = true := by decide

/-! ## Witnesses: what the hypotheses of the statements ask for exists -/

/-- For `DecodeOfEncodeIsTheCommand`: the extreme operands of several formats. -/
theorem witness_wellFormed : (Instr.setf .dr 0xFFFF#16).wellFormed = true ∧
    (Instr.begin 0x7F#7).wellFormed = true ∧ (Instr.getres 5#3).wellFormed = true := by decide
/-- For `EncodeOfDecodeIsTheWord`. -/
theorem witness_decode_ok : decode 0x0204FFFF#32 = .ok (.setf .dr 0xFFFF#16) := by decide
/-- For `IllegalWordsAreRefused`: an idle block with the illegal word V-IL8 at its port. -/
theorem witness_illegal_at_port : (State.reset.withFetchWord 32 0x10000080).phase = .idle ∧
    (State.reset.withFetchWord 32 0x10000080).cmds = 0x10000080#32 :: [] ∧
    decode 0x10000080#32 = .error .mustBeZeroBitSet := by decide
/-- For the clauses of `NoTwoRowsMatchOneWord`: READCH 7 and its row. -/
theorem witness_row : Opcode.readch.selects 0x31000007#32 = true ∧
    Opcode.readchfsr.selects 0x31000007#32 = false := by decide
/-- For `StepRunsTheDecodedCommand`. -/
theorem witness_command_at_port : (State.reset.withFetchWord 32 0x41000001).phase = .idle ∧
    (State.reset.withFetchWord 32 0x41000001).cmds = 0x41000001#32 :: [] ∧
    decode 0x41000001#32 = .ok (.vreadar 1#3) := by decide
/-- For `IdleBlockWaitsForAWord`. -/
theorem witness_waiting : State.reset.phase = .idle ∧ State.reset.cmds = [] := by decide
/-- A block that polls. -/
def polling : State := { board 0xC583#16 #v[0, 0, 0, 0] [.short, ans 0x0583#16, ans 0x8000#16] with
  phase := .poll .volt, trace := [.write 0x48#7 0x01#8 0xC583#16], cmds := [0x03000000#32] }
/-- For `BusyBlockIgnoresTheCommandPort`, `PhaseFollowsTheTable`, `ResponseComesWithIdle`, the
clauses of `WhoWritesTheRegisters` and `StepWritesOnlyTheCache` about steps, and
`PollTestsBitFifteenOnly`: a polling block, its short reply and its step. -/
theorem witness_polling_step : polling.phase = .poll .volt ∧ polling.phase ≠ .idle ∧
    (∀ i, polling.phase ≠ .exec (.start i)) ∧ replyAt polling 0 = .short ∧
    step polling = .next (pollStep .volt polling) ∧ (pollStep .volt polling).phase ≠ .idle :=
  ⟨rfl, by decide, fun _ => nofun, rfl, rfl, by decide⟩
/-- For the second clause of `ResponseComesWithIdle` and the third of `WhoWritesTheRegisters`: a
VREADAR's sample that responds and moves its gain index (95, comparator at 921, index 2). -/
def sampling : State := { board 0xC583#16 #v[2, 0, 0, 0] [ans 0x3990#16] with
  phase := .exec (.readConv (.auto 0 2#3)) }
theorem witness_sampling_step : sampling.phase ≠ .idle ∧
    (∀ i, sampling.phase ≠ .exec (.start i)) ∧
    nextIs (fun t => t.phase == .idle && t.ar[0] != sampling.ar[0]) (step sampling) = true :=
  ⟨by decide, fun _ => nofun, by decide⟩
/-- For `StepKeepsTheInvariant`: the invariant in a busy phase, and the step from it. -/
theorem witness_inv_polling : Inv polling ∧ step polling = .next (pollStep .volt polling) :=
  ⟨⟨show ∀ i : Fin 4, _ from by decide, by decide, by decide, by decide,
    show lastSent _ = _ from by decide, by decide⟩, rfl⟩
/-- For `FieldLaws`: the largest value of a field, beside the one that does not fit, and two fields. -/
theorem witness_field_value : (7#16).toNat < 2 ^ fieldWidth .dr ∧
    ¬ (8#16).toNat < 2 ^ fieldWidth .dr ∧ Field.mode ≠ Field.dr := by decide
/-- For `SetfAppliesTheFieldFormula`. -/
theorem witness_field_not_rsvd : Field.os ≠ Field.rsvd := by decide
/-- For the second clause of `BeginProbesTheDevice`. -/
theorem witness_settling : ({ fresh [ans 0x8583#16] with phase := .settle } : State).phase = .settle := rfl
/-- For `DeferredRangeRidesOnTheTrigger` and `SingleShotReadTriggersOnce`: single-shot mode, and
the outermost channels VREAD takes. -/
theorem witness_single_shot : modeOf (fresh []).cfg = 1#1 ∧ (0#3).toNat ≤ 3 ∧ (3#3).toNat ≤ 3 := by decide
/-- For `ContinuousRawReadRespondsAtOnce`. -/
theorem witness_continuous : modeOf (board 0x8483#16 #v[0, 0, 0, 0] []).cfg = 0#1 := by decide
/-- For the second clause of `PollTestsBitFifteenOnly`. -/
theorem witness_pollWait : ({ polling with phase := .pollWait .volt } : State).phase = .pollWait .volt := rfl
/-- For `PollLoopHasNoLimit`: two polls that find the device not ready, one of them a short read. -/
theorem witness_poll_loop : polling.phase = .poll .volt ∧
    ∀ j, j < 2 → (readValueAt polling j).getLsbD 15 = false := by decide
/-- A block in single-shot mode at range 5 whose device is ready at the third poll. -/
def readyAtThird : State :=
  board 0x8B83#16 #v[0, 0, 0, 0] [.short, ans 0x0583#16, ans 0x8000#16, ans 0x7FF0#16]
/-- For `SingleShotVreadCompletes`: channel 3 on `readyAtThird`, with two polls not ready. -/
theorem witness_single_shot_vread : modeOf readyAtThird.cfg = 1#1 ∧ (3#3).toNat ≤ 3 ∧
    (fsrOf readyAtThird.cfg).toNat ≤ 5 ∧
    (∀ j, j < 2 → (readValueAt readyAtThird j).getLsbD 15 = false) ∧
    (readValueAt readyAtThird 2).getLsbD 15 = true := by decide
/-- For `SingleShotReadCompletes`: READCHFSR 2, 4 on `readyAtThird`. -/
theorem witness_single_shot_read : modeOf readyAtThird.cfg = 1#1 ∧
    readSelection (.readchfsr 2#3 4#3) readyAtThird.cfg = some (6#3, 4#3) ∧
    (∀ j, j < 2 → (readValueAt readyAtThird j).getLsbD 15 = false) ∧
    (readValueAt readyAtThird 2).getLsbD 15 = true := by decide
/-- For the clauses of `DecoderTakesTheUpperTwelveBits`. -/
theorem witness_result_words : (0x8000#16).getLsbD 15 = true ∧ (0x7FFF#16).getLsbD 15 = false ∧
    (0x7FF0#16).extractLsb' 4 12 = (0x7FFF#16).extractLsb' 4 12 := by decide
/-- For `ScalerIsExact`: both ends of the code at the widest and at the narrowest range. -/
theorem witness_codes : -2048 ≤ (0xF800#16).toInt ∧ (0xF800#16).toInt ≤ 2047 ∧
    -2048 ≤ (2047#16).toInt ∧ (2047#16).toInt ≤ 2047 ∧ (0#3).toNat ≤ 5 ∧ (5#3).toNat ≤ 5 := by decide
/-- For the clauses of `VreadRespondsMicrovolts`: channel 4; channel 3 in continuous mode at the
ranges 5 and 6. -/
theorem witness_vread : 3 < (4#3).toNat ∧ (3#3).toNat ≤ 3 ∧
    modeOf (board 0x8A83#16 #v[0, 0, 0, 0] []).cfg = 0#1 ∧
    (fsrOf (board 0x8A83#16 #v[0, 0, 0, 0] []).cfg).toNat ≤ 5 ∧
    modeOf (board 0x8C83#16 #v[0, 0, 0, 0] []).cfg = 0#1 ∧
    ¬ (fsrOf (board 0x8C83#16 #v[0, 0, 0, 0] []).cfg).toNat ≤ 5 := by decide
/-- A block about to read the sample of a VREAD, with this cache. -/
def sampleDue (cfg : Half) : State :=
  { board cfg #v[0, 0, 0, 0] [] with phase := .exec (.readConv .volt) }
/-- For the clauses of `SampleEndsTheReadCommand`: a raw read; VREAD at the ranges 5 and 6; VREADAR
at the index it reads at. -/
theorem witness_sample : ({ fresh [] with phase := .exec (.readConv .code) } : State).phase =
      .exec (.readConv .code) ∧
    (sampleDue 0xCB83#16).phase = .exec (.readConv .volt) ∧
    (fsrOf (sampleDue 0xCB83#16).cfg).toNat ≤ 5 ∧
    (sampleDue 0xCD83#16).phase = .exec (.readConv .volt) ∧
    5 < (fsrOf (sampleDue 0xCD83#16).cfg).toNat ∧
    sampling.phase = .exec (.readConv (.auto 0 2#3)) ∧ sampling.ar[(0 : Fin 4)] = 2#3 ∧
    (2#3).toNat ≤ 5 := by decide
/-- For `VreadarPassInContinuousMode`. -/
theorem witness_vreadar_pass : 3 < (4#3).toNat ∧
    modeOf (board 0xC483#16 #v[3, 0, 0, 5] []).cfg = 0#1 ∧
    (board 0xC483#16 #v[3, 0, 0, 5] []).ar[(3 : Fin 4)].toNat ≤ 5 := by decide
/-- A VREADAR of channel 3 at index 1 about to start in single-shot mode; the device is ready at
every first poll and saturates once. -/
def starting : State :=
  { board 0x8583#16 #v[0, 0, 0, 1] [ans 0x8000#16, ans 0x7FF0#16, ans 0x8000#16, ans 0x5550#16] with
    phase := .exec (.start (.vreadar 3#3)) }
/-- For `VreadarTerminatesInSingleShotMode`. -/
theorem witness_starting : starting.phase = .exec (.start (.vreadar (BitVec.ofNat 3 (3 : Fin 4).val))) ∧
    modeOf starting.cfg = 1#1 ∧ starting.ar[(3 : Fin 4)].toNat ≤ 5 ∧
    ∀ j, j ≤ starting.ar[(3 : Fin 4)].toNat → (readValueAt starting (2 * j)).getLsbD 15 = true :=
  ⟨rfl, by decide, by decide, by decide⟩
/-- For `VreadarTerminatesInContinuousMode`. -/
theorem witness_starting_continuous :
    ({ starting with cfg := 0x8483#16 } : State).phase =
      .exec (.start (.vreadar (BitVec.ofNat 3 (3 : Fin 4).val))) ∧
    modeOf ({ starting with cfg := 0x8483#16 } : State).cfg = 0#1 ∧
    ({ starting with cfg := 0x8483#16 } : State).ar[(3 : Fin 4)].toNat ≤ 5 :=
  ⟨rfl, by decide, by decide⟩
/-- For `BoundaryInputAlternatesTheIndex`: 1842 at index 2, then 921 at index 1. -/
theorem witness_boundary :
    modeOf (board 0xC483#16 #v[2, 0, 0, 0] [ans 0x7320#16, ans 0x3990#16]).cfg = 0#1 ∧
    2 ≤ (board 0xC483#16 #v[2, 0, 0, 0] [ans 0x7320#16, ans 0x3990#16]).ar[(0 : Fin 4)].toNat ∧
    (board 0xC483#16 #v[2, 0, 0, 0] [ans 0x7320#16, ans 0x3990#16]).ar[(0 : Fin 4)].toNat ≤ 5 ∧
    codeOf (readValueAt (board 0xC483#16 #v[2, 0, 0, 0] [ans 0x7320#16, ans 0x3990#16]) 0) = 1842 ∧
    codeOf (readValueAt (board 0xC483#16 #v[2, 0, 0, 0] [ans 0x7320#16, ans 0x3990#16]) 1) = 921 := by
  decide
/-- For `NegativeInputNarrowsTheRange`: the negative full scale at index 5. -/
theorem witness_negative : modeOf (board 0xC483#16 #v[5, 0, 0, 0] [ans 0x8000#16]).cfg = 0#1 ∧
    (board 0xC483#16 #v[5, 0, 0, 0] [ans 0x8000#16]).ar[(0 : Fin 4)].toNat ≤ 5 ∧
    codeOf (readValue (board 0xC483#16 #v[5, 0, 0, 0] [ans 0x8000#16])) < 0 := by decide
/-- For the first clauses of `WhoWritesTheRegisters` and `StepWritesOnlyTheCache`: a BEGIN that
changes the address and a VREADAR that changes its gain index. -/
theorem witness_writers : nextIs (fun t => t.addr != (fresh []).addr) (exec (.begin 0x49#7) (fresh [])) = true ∧
    nextIs (fun t => t.ar[3] != 1#3) (exec (.vreadar 3#3)
      (board 0xF483#16 #v[0, 0, 0, 1] [ans 0x0010#16])) = true := by decide
/-- For the clauses of `StartBitIsClearedOnlyByHand`. -/
theorem witness_start_bit : osOf (fresh []).cfg = 1#1 ∧
    nextIs (fun t => osOf t.cfg == 0#1) (exec (.setf .os 2#16) (fresh [])) = true ∧
    nextIs (fun t => osOf t.cfg == 0#1) (exec (.setw 0x0583#16) (fresh [])) = true := by decide

end Sys2Proof.Tests
end

section
/-! SUPPORT. One step by cases, and what the step of each kind leaves: the proofs of the statements
about the state (10_state.md). -/

namespace Sys2Proof.Machine

variable {s t : State} {i : Instr} {k : Resume} {ws : List Word}

/-! ## One step by cases -/

/-- The ways a step from `s` to `t` can go (10_state.md R30): three in `P_IDLE`, then one for each
place a busy block can stand at. -/
inductive StepCase (s t : State) : Prop
  | wait (hp : s.phase = .idle) (ht : t = s)
  | refuse (hp : s.phase = .idle) (ht : t = refuseWord s)
  | command (i : Instr) (hp : s.phase = .idle) (h : exec i (acceptCommand i s) = .next t)
  | start (i : Instr) (hp : s.phase = .exec (.start i)) (h : exec i s = .next t)
  | readBack (hp : s.phase = .exec .readBack) (ht : t = readBackStep s)
  | readConv (k : Resume) (hp : s.phase = .exec (.readConv k)) (ht : t = readConvStep k s)
  | settle (hp : s.phase = .settle) (ht : t = settleStep s)
  | poll (k : Resume) (hp : s.phase = .poll k) (ht : t = pollStep k s)
  | pollWait (k : Resume) (hp : s.phase = .pollWait k) (ht : t = pollDelayStep k s)

theorem step_cases (h : step s = .next t) : StepCase s t := by
  have same : ∀ {u : State}, step s = .next u → t = u := by
    intro u hu
    rw [h] at hu
    exact Host.Outcome.next.inj hu
  cases hp : s.phase with
  | idle =>
    cases hc : s.cmds with
    | nil => exact .wait hp (same (step_wait hp hc))
    | cons c rest =>
      cases hd : decode c with
      | error r => exact .refuse hp (same (step_illegal hp hc hd))
      | ok i => exact .command i hp (step_command hp hc hd ▸ h)
  | exec p =>
    cases p with
    | start i => exact .start i hp (step_start hp ▸ h)
    | readBack => exact .readBack hp (same (step_readBack hp))
    | readConv k => exact .readConv k hp (same (step_readConv hp))
  | settle => exact .settle hp (same (step_settle hp))
  | poll k => exact .poll k hp (same (step_poll hp))
  | pollWait k => exact .pollWait k hp (same (step_pollWait hp))

/-- A poll in one equation (42_conversion.md R142): the ready bit decides the phase alone. -/
theorem pollStep_eq : pollStep k s = setPhase
    (if isReady (readValue s) = true then .exec (.readConv k) else .pollWait k)
    (memRead Config.regCfg s) := by
  unfold pollStep
  split <;> rfl

/-! ## The events of a step -/

/-- `t` is `s` with legal events added to the trace (20_memory.md R51, R52). -/
def appendsLegal (s t : State) : Prop :=
  ∃ es, t.trace = s.trace ++ es ∧ ∀ e ∈ es, eventLegal e = true

theorem appendsLegal.of_trace_eq (h : t.trace = s.trace) : appendsLegal s t :=
  ⟨[], by simp [h], by simp⟩

theorem appendsLegal.of_trace_append {e : Event} (h : t.trace = s.trace ++ [e])
    (he : eventLegal e = true) : appendsLegal s t :=
  ⟨[e], h, by simpa using he⟩

theorem appendsLegal.keeps (h : appendsLegal s t) (hs : ∀ e ∈ s.trace, eventLegal e = true) :
    ∀ e ∈ t.trace, eventLegal e = true := by
  obtain ⟨es, ht, hes⟩ := h
  rw [ht]
  exact List.forall_mem_append.2 ⟨hs, hes⟩

theorem sampled_appendsLegal (wrote : Bool) (m g : BitVec 3) :
    appendsLegal s (sampled wrote m g s) := by
  refine ⟨_, List.append_assoc .., ?_⟩
  cases wrote <;> simp [eventLegal, Config.regCfg, Config.regConv]

theorem exec_appendsLegal (h : exec i s = .next t) : appendsLegal s t := by
  rcases exec_cases h with ⟨a, -, rfl⟩ | ⟨k, m, g, -, -, rfl⟩ | ⟨k, m, g, w, -, -, rfl⟩ |
    ⟨-, -, c, es, st, v, rfl, hes⟩
  · exact .of_trace_append rfl rfl
  · exact .of_trace_append rfl rfl
  · obtain ⟨-, -, htrace, -⟩ := finishRead_frame k (decode12 (readValue s)) (sampled w m g s)
    unfold appendsLegal
    rw [htrace]
    exact sampled_appendsLegal w m g
  · refine ⟨es, rfl, ?_⟩
    rcases hes with rfl | ⟨rfl, -⟩ | ⟨-, -, rfl⟩ <;> simp [eventLegal]

theorem readConvStep_trace : (readConvStep k s).trace =
    s.trace ++ [.read s.addr Config.regConv (readValue s)] := by
  obtain ⟨-, -, htrace, -⟩ :=
    finishRead_frame k (decode12 (readValue s)) (memRead Config.regConv s)
  exact htrace

theorem step_appendsLegal (h : step s = .next t) : appendsLegal s t := by
  cases step_cases h with
  | wait hp ht => exact .of_trace_eq (by rw [ht])
  | refuse hp ht => exact .of_trace_eq (by rw [ht]; rfl)
  | command i hp h => exact exec_appendsLegal (s := acceptCommand i s) h
  | start i hp h => exact exec_appendsLegal h
  | readBack hp ht => exact .of_trace_append (by rw [ht]; rfl) rfl
  | readConv k hp ht => exact .of_trace_append (by rw [ht, readConvStep_trace]) rfl
  | settle hp ht => exact .of_trace_append (by rw [ht]; rfl) (by simp [eventLegal])
  | poll k hp ht => exact .of_trace_append (by rw [ht, pollStep_eq]; rfl) rfl
  | pollWait k hp ht => exact .of_trace_append (by rw [ht]; rfl) (by simp [eventLegal])

/-! ## The invariant of a phase -/

theorem phaseInv_of_idle (hp : s.phase = .idle) : phaseInv s := by
  simp [phaseInv, hp]

theorem phaseInv_settle (hp : s.phase = .settle) :
    phaseInv s ↔ s.cfg = Config.cfgDefault ∧ cacheSent s := by
  simp [phaseInv, hp]

theorem phaseInv_readConv (hp : s.phase = .exec (.readConv k)) :
    phaseInv s ↔ readUnderWay k s := by
  simp [phaseInv, hp]

theorem phaseInv_poll (hp : s.phase = .poll k) : phaseInv s ↔ readUnderWay k s := by
  simp [phaseInv, hp]

theorem phaseInv_pollWait (hp : s.phase = .pollWait k) : phaseInv s ↔ readUnderWay k s := by
  simp [phaseInv, hp]

/-! ## The gain indices -/

/-- Steps A3 to A5 leave the comparator's index in the slot (44_autorange.md R182). -/
theorem finishAuto_slot {slot : Fin 4} {r : Half} {g : BitVec 3} (h : s.ar[slot] = g)
    (hg : g.toNat ≤ 5) : (finishAuto slot (decode12 r) g s).ar[slot] = nextIndex (codeOf r) g := by
  rw [finishAuto_eq h hg]
  split <;> exact Vector.getElem_set_self slot.isLt

/-- The end of a read command keeps the indices in 0..5 when VREADAR's slot holds the index it read
at (44_autorange.md R186). -/
theorem finishRead_arLegal {r : Half} (h : arLegal s)
    (hk : ∀ slot g, k = .auto slot g → s.ar[slot] = g) :
    arLegal (finishRead k (decode12 r) s) := by
  intro j
  by_cases hj : (finishRead k (decode12 r) s).ar[j] = s.ar[j]
  · rw [hj]
    exact h j
  · obtain ⟨-, -, -, -, hslot⟩ := finishRead_frame k (decode12 r) s
    obtain ⟨g, rfl⟩ := hslot j hj
    have hg : g.toNat ≤ 5 := hk j g rfl ▸ h j
    rw [finishRead, finishAuto_slot (hk j g rfl) hg]
    exact nextIndex_le hg

theorem exec_arLegal (hs : arLegal s) (h : exec i s = .next t) : arLegal t := by
  rcases exec_cases h with ⟨a, -, rfl⟩ | ⟨k, m, g, -, -, rfl⟩ | ⟨k, m, g, w, hplan, -, rfl⟩ |
    ⟨-, -, c, es, st, v, rfl, -⟩
  · exact hs
  · exact hs
  · refine finishRead_arLegal (s := sampled w m g s) hs ?_
    rintro slot g' rfl
    obtain ⟨-, hg, -⟩ := readPlan_auto hplan
    exact hg.symm
  · exact hs

theorem step_arLegal (hs : Inv s) (h : step s = .next t) : arLegal t := by
  obtain ⟨har, -, hphase⟩ := hs
  cases step_cases h with
  | wait hp ht => exact ht ▸ har
  | refuse hp ht => exact ht ▸ har
  | command i hp h => exact exec_arLegal (s := acceptCommand i s) har h
  | start i hp h => exact exec_arLegal har h
  | readBack hp ht => exact ht ▸ har
  | readConv k hp ht =>
    subst ht
    refine finishRead_arLegal (s := memRead Config.regConv s) har ?_
    rintro slot g rfl
    obtain ⟨-, -, -, -, -, hslot⟩ := (phaseInv_readConv hp).1 hphase
    exact hslot
  | settle hp ht => exact ht ▸ har
  | poll k hp ht => exact ht ▸ pollStep_eq ▸ har
  | pollWait k hp ht => exact ht ▸ har

/-! ## What keeps the invariant of the phases -/

/-- Reads and delays leave the last word sent, so `readUnderWay` depends on nothing else of the
trace. -/
theorem readUnderWay_congr (hc : t.cfg = s.cfg) (ha : t.addr = s.addr) (har : t.ar = s.ar)
    (hl : lastSent t.trace = lastSent s.trace) (h : readUnderWay k s) : readUnderWay k t := by
  unfold readUnderWay cacheSent at *
  rw [hc, ha, har, hl]
  exact h

theorem cacheSent_of_write (h : t.trace = s.trace ++ [.write t.addr Config.regCfg t.cfg]) :
    cacheSent t := by
  simp [cacheSent, h, noteSent]

/-- The trigger of a planned read puts it under way (42_conversion.md R141). -/
theorem triggered_readUnderWay {m g : BitVec 3} (hplan : readPlan i s = some (k, m, g)) :
    readUnderWay k (triggered k m g s) := by
  refine ⟨osOf_pack, modeOf_pack, cacheSent_of_write (s := s) rfl, ?_⟩
  cases k with
  | code => trivial
  | volt =>
    simp only [triggered, muxOf_pack]
    exact readPlan_volt hplan
  | auto slot g' =>
    obtain ⟨-, hg, hm, hg'⟩ := readPlan_auto hplan
    simp only [triggered, muxOf_pack, fsrOf_pack, chanToMux_eq_xor]
    exact ⟨hm, hg'.trans hg.symm, hg.symm⟩

/-- A read command ends idle or at the start of another VREADAR (44_autorange.md R181). -/
theorem finishRead_phaseInv (k : Resume) (code : Half) (s : State) :
    phaseInv (finishRead k code s) := by
  rcases finishRead_cases k code s with ⟨v, f, ar, h, -⟩ | ⟨slot, g, ar, -, h, -⟩ <;> rw [h]
  · exact phaseInv_of_idle rfl
  · exact ⟨slot, rfl⟩

/-- A command establishes the invariant of the phase it ends in, whatever the state before. -/
theorem exec_phaseInv (h : exec i s = .next t) : phaseInv t := by
  rcases exec_cases h with ⟨a, -, rfl⟩ | ⟨k, m, g, hplan, -, rfl⟩ | ⟨k, m, g, w, -, -, rfl⟩ |
    ⟨-, -, c, es, st, v, rfl, -⟩
  · exact ⟨rfl, cacheSent_of_write (s := s) rfl⟩
  · exact triggered_readUnderWay hplan
  · exact finishRead_phaseInv ..
  · exact phaseInv_of_idle rfl

theorem step_phaseInv (hs : phaseInv s) (h : step s = .next t) : phaseInv t := by
  cases step_cases h with
  | wait hp ht => exact ht ▸ hs
  | refuse hp ht => exact phaseInv_of_idle (ht ▸ rfl)
  | command i hp h => exact exec_phaseInv h
  | start i hp h => exact exec_phaseInv h
  | readBack hp ht => exact phaseInv_of_idle (ht ▸ rfl)
  | readConv k hp ht => exact ht ▸ finishRead_phaseInv ..
  | settle hp ht =>
    subst ht
    obtain ⟨hcfg, hsent⟩ := (phaseInv_settle hp).1 hs
    refine ⟨hcfg, ?_⟩
    simpa [cacheSent, settleStep, noteSent] using hsent
  | poll k hp ht =>
    have hu : ∀ p, readUnderWay k (setPhase p (memRead Config.regCfg s)) := fun p =>
      readUnderWay_congr (s := s) rfl rfl rfl (by simp [noteSent]) ((phaseInv_poll hp).1 hs)
    rw [ht, pollStep_eq]
    split <;> exact hu _
  | pollWait k hp ht =>
    subst ht
    exact readUnderWay_congr (s := s) (t := pollDelayStep k s) rfl rfl rfl
      (by simp [pollDelayStep, noteSent]) ((phaseInv_pollWait hp).1 hs)

/-! ## The command port -/

/-- `s` with these words offered at the command port. -/
def offering (ws : List Word) (s : State) : State := { s with cmds := ws }

theorem setFsr_offering (g : BitVec 3) (wi : Bool) :
    setFsr g wi (offering ws s) = offering ws (setFsr g wi s) := by
  rw [setFsr_eq, setFsr_eq]
  rfl

theorem setMux_offering (m : BitVec 3) (wi : Bool) :
    setMux m wi (offering ws s) = offering ws (setMux m wi s) := by
  rw [setMux_eq, setMux_eq]
  rfl

theorem writeIf_offering (wi : Bool) : writeIf wi (offering ws s) = offering ws (writeIf wi s) := by
  rw [writeIf_eq, writeIf_eq]
  rfl

theorem setMode_offering (mode : BitVec 1) (wi : Bool) :
    setMode mode wi (offering ws s) = offering ws (setMode mode wi s) :=
  writeIf_offering (s := setCfg (setField .mode (mode.setWidth 16) s.cfg) s) wi

theorem setRate_offering (d : BitVec 3) (wi : Bool) :
    setRate d wi (offering ws s) = offering ws (setRate d wi s) :=
  writeIf_offering (s := setCfg (orRate d s.cfg) s) wi

theorem respondScaled_offering (code : Half) (g : BitVec 3) :
    respondScaled code g (offering ws s) = offering ws (respondScaled code g s) := by
  unfold respondScaled
  split <;> rfl

theorem respondTable_offering (entry : Option Nat) :
    respondTable entry (offering ws s) = offering ws (respondTable entry s) := by
  cases entry <;> rfl

theorem adjustRange_offering (slot : Fin 4) (code : Half) (g : BitVec 3) :
    adjustRange slot code g (offering ws s) = offering ws (adjustRange slot code g s) := by
  unfold adjustRange
  split <;> rfl

theorem finishRead_offering (code : Half) :
    finishRead k code (offering ws s) = offering ws (finishRead k code s) := by
  cases k with
  | code => rfl
  | volt => exact respondScaled_offering ..
  | auto slot g =>
    simp only [finishRead, finishAuto, adjustRange_offering]
    split
    · rfl
    · exact respondScaled_offering ..

theorem readConvStep_offering : readConvStep k (offering ws s) = offering ws (readConvStep k s) :=
  finishRead_offering (s := memRead Config.regConv s) _

theorem pollStep_offering : pollStep k (offering ws s) = offering ws (pollStep k s) := by
  rw [pollStep_eq, pollStep_eq]
  rfl

theorem rawRead_offering : rawRead k (offering ws s) = offering ws (rawRead k s) := by
  have hmode : (offering ws s).mode = s.mode := rfl
  unfold rawRead
  rw [hmode]
  split
  · rfl
  · exact readConvStep_offering

theorem readCh_offering (ch : BitVec 3) :
    readCh ch k (offering ws s) = offering ws (readCh ch k s) := by
  rw [readCh, setMux_offering, rawRead_offering]
  rfl

theorem readFsr_offering (g : BitVec 3) :
    readFsr g k (offering ws s) = offering ws (readFsr g k s) := by
  rw [readFsr, setFsr_offering, rawRead_offering]
  rfl

theorem readChFsr_offering (ch g : BitVec 3) :
    readChFsr ch g k (offering ws s) = offering ws (readChFsr ch g k s) := by
  rw [readChFsr, setFsr_offering, readCh_offering]
  rfl

/-- No command looks at the command port (10_state.md R32). -/
theorem exec_offering (h : exec i s = .next t) :
    exec i (offering ws s) = .next (offering ws t) := by
  rw [exec_eq] at h ⊢
  cases h
  refine congrArg Host.Outcome.next ?_
  cases i with
  | getf | getw | setw | begin | reset | restore => rfl
  | setf f v =>
    simp only
    split <;> rfl
  | setfsr g wi => exact congrArg (respond .ok 0#32) (setFsr_offering g wi)
  | setmux m wi => exact congrArg (respond .ok 0#32) (setMux_offering m wi)
  | setmode mode wi => exact congrArg (respond .ok 0#32) (setMode_offering mode wi)
  | setrate d wi => exact congrArg (respond .ok 0#32) (setRate_offering d wi)
  | rawread => exact rawRead_offering
  | readch ch => exact readCh_offering ch
  | readfsr g => exact readFsr_offering g
  | readchfsr ch g => exact readChFsr_offering ch g
  | vread ch =>
    simp only
    split
    · rfl
    · exact readCh_offering ch
  | vreadar ch =>
    simp only
    split
    · rfl
    · exact readChFsr_offering ..
  | getfrv g => exact respondTable_offering _
  | getres g => exact respondTable_offering _

/-- Nor does any step of a busy block. -/
theorem step_offering (hp : s.phase ≠ .idle) (h : step s = .next t) :
    step (offering ws s) = .next (offering ws t) := by
  cases step_cases h with
  | wait hp' | refuse hp' | command _ hp' => exact absurd hp' hp
  | start i hp h =>
    rw [step_start (s := offering ws s) hp]
    exact exec_offering h
  | readBack hp ht => exact ht ▸ step_readBack (s := offering ws s) hp
  | readConv k hp ht =>
    rw [step_readConv (s := offering ws s) hp, readConvStep_offering, ht]
  | settle hp ht => exact ht ▸ step_settle (s := offering ws s) hp
  | poll k hp ht => rw [step_poll (s := offering ws s) hp, pollStep_offering, ht]
  | pollWait k hp ht => exact ht ▸ step_pollWait (s := offering ws s) hp

/-! ## Where the phase goes -/

theorem finishRead_phaseName (k : Resume) (code : Half) (s : State) :
    phaseName (finishRead k code s).phase = 0 ∨ phaseName (finishRead k code s).phase = 1 := by
  rcases finishRead_cases k code s with ⟨v, f, ar, h, -⟩ | ⟨slot, g, ar, -, h, -⟩ <;> rw [h] <;>
    simp [phaseName]

/-- `P_EXEC` leads a command to `P_IDLE`, `P_SETTLE` or `P_POLL`, or to another pass. -/
theorem exec_phaseName (h : exec i s = .next t) : phaseName t.phase ∈ [0, 1, 2, 3] := by
  rcases exec_cases h with ⟨a, -, rfl⟩ | ⟨k, m, g, -, -, rfl⟩ | ⟨k, m, g, w, -, -, rfl⟩ |
    ⟨-, -, c, es, st, v, rfl, -⟩
  · simp [beginAt, phaseName]
  · simp [triggered, phaseName]
  · rcases finishRead_phaseName k (decode12 (readValue s)) (sampled w m g s) with h0 | h1
    · simp [h0]
    · simp [h1]
  · simp [phaseName]

/-! ## The response -/

/-- A read command that does not end idle leaves the response, and one that does responds
`ST_OK`. -/
theorem finishRead_response (k : Resume) (code : Half) (s : State) :
    ((finishRead k code s).phase ≠ .idle →
      (finishRead k code s).status = s.status ∧ (finishRead k code s).value = s.value) ∧
    ((finishRead k code s).phase = .idle → (finishRead k code s).status = .ok) := by
  rcases finishRead_cases k code s with ⟨v, f, ar, h, -⟩ | ⟨slot, g, ar, -, h, -⟩ <;> rw [h] <;>
    simp

theorem exec_response (h : exec i s = .next t) (ht : t.phase ≠ .idle) :
    t.status = s.status ∧ t.value = s.value := by
  rcases exec_cases h with ⟨a, -, rfl⟩ | ⟨k, m, g, -, -, rfl⟩ | ⟨k, m, g, w, -, -, rfl⟩ |
    ⟨-, -, c, es, st, v, rfl, -⟩
  · exact ⟨rfl, rfl⟩
  · exact ⟨rfl, rfl⟩
  · exact (finishRead_response k _ (sampled w m g s)).1 ht
  · exact absurd rfl ht

/-! ## The registers -/

/-- Only BEGIN changes the address (10_state.md R24). -/
theorem exec_addr (h : exec i s = .next t) (ha : t.addr ≠ s.addr) : ∃ a, i = .begin a := by
  rcases exec_cases h with ⟨a, hi, -⟩ | ⟨k, m, g, -, -, rfl⟩ | ⟨k, m, g, w, -, -, rfl⟩ |
    ⟨-, -, c, es, st, v, rfl, -⟩
  · exact ⟨a, hi⟩
  · exact absurd rfl ha
  · obtain ⟨-, haddr, -⟩ := finishRead_frame k (decode12 (readValue s)) (sampled w m g s)
    exact absurd haddr ha
  · exact absurd rfl ha

/-- Only VREADAR changes a gain index, that of its own slot (10_state.md R25). -/
theorem exec_ar {j : Fin 4} (h : exec i s = .next t) (hj : t.ar[j] ≠ s.ar[j]) :
    i = .vreadar (slotChannel j) := by
  rcases exec_cases h with ⟨a, -, rfl⟩ | ⟨k, m, g, -, -, rfl⟩ | ⟨k, m, g, w, hplan, -, rfl⟩ |
    ⟨-, -, c, es, st, v, rfl, -⟩
  · exact absurd rfl hj
  · exact absurd rfl hj
  · obtain ⟨-, -, -, -, hslot⟩ := finishRead_frame k (decode12 (readValue s)) (sampled w m g s)
    obtain ⟨g', rfl⟩ := hslot j hj
    obtain ⟨hi, -⟩ := readPlan_auto hplan
    exact hi
  · exact absurd rfl hj

/-! ## The start bit -/

theorem osOf_eq_one {cfg : Half} : osOf cfg = 1#1 ↔ cfg.getLsbD 15 = true := by
  rw [getLsbD_fifteen, beq_iff_eq]

/-- `SetField` leaves the start bit set in any field but OS, and OS takes bit 0 of the value
(40_config_register.md R100: the value is not masked). -/
theorem setField_startBit {f : Field} {v cfg : Half} (h : osOf cfg = 1#1)
    (hf : f = .os → v.getLsbD 0 = true) : osOf (setField f v cfg) = 1#1 := by
  rw [osOf_eq_one] at h ⊢
  cases f with
  | os => simpa [setField, fieldPos] using .inr (hf rfl)
  | mux | fsr | mode | dr | rsvd => simpa [setField, fieldMask] using .inl h

theorem exec_read_startBit {m g : BitVec 3} (hplan : readPlan i s = some (k, m, g))
    (h : exec i s = .next t) (hos : osOf s.cfg = 1#1) : osOf t.cfg = 1#1 := by
  rcases mode_cases s.cfg with hm | hm
  · obtain ⟨w, hw⟩ := exec_read_continuous hplan hm
    rw [hw] at h
    cases h
    obtain ⟨hcfg, -⟩ := finishRead_frame k (decode12 (readValue s)) (sampled w m g s)
    rw [hcfg]
    exact osOf_pack.trans hos
  · rw [exec_read_singleShot hplan hm] at h
    cases h
    exact osOf_pack

theorem respondTable_cfg (entry : Option Nat) : (respondTable entry s).cfg = s.cfg := by
  cases entry <;> rfl

/-- A command keeps the start bit set unless its own operand clears it (10_state.md R29). -/
theorem exec_startBit (h : exec i s = .next t) (hos : osOf s.cfg = 1#1)
    (hsetf : ∀ v, i = .setf .os v → v.getLsbD 0 = true)
    (hsetw : ∀ w, i = .setw w → w.getLsbD 15 = true) : osOf t.cfg = 1#1 := by
  rcases hplan : readPlan i s with _ | ⟨k, m, g⟩
  case some => exact exec_read_startBit hplan h hos
  rw [exec_eq] at h
  cases h
  cases i with
  | getf | getw | restore => exact hos
  | setf f v =>
    simp only
    split
    · exact hos
    · exact setField_startBit hos fun hf => hsetf v (hf ▸ rfl)
  | setw w => exact osOf_eq_one.2 (hsetw w rfl)
  | begin | reset =>
    show osOf Config.cfgDefault = 1#1
    decide
  | setfsr g wi => simpa [setFsr_eq] using hos
  | setmux m wi => simpa [setMux_eq] using hos
  | setmode mode wi =>
    simpa [setMode, writeIf_eq] using setField_startBit (f := .mode) hos (by simp)
  | setrate d wi => simpa [setRate, writeIf_eq, orRate_eq] using hos
  | rawread | readch | readfsr | readchfsr => cases hplan
  | vread ch | vreadar ch =>
    simp only [readPlan] at hplan
    split at hplan
    · rename_i hs
      simp only [hs]
      exact hos
    · cases hplan
  | getfrv | getres => exact (congrArg osOf (respondTable_cfg _)).trans hos

/-! ## Reset -/

theorem reset_ar (i : Fin 4) : State.reset.ar[i].toNat = (Config.arInit i).val := by
  simp only [State.reset, Fin.getElem_fin, Vector.getElem_ofFn, BitVec.toNat_ofNat]
  exact Nat.mod_eq_of_lt (by omega)

theorem reset_arLegal : arLegal State.reset := by
  intro i
  rw [reset_ar]
  omega

/-! ## The statements -/

/-- Settles O11: the three clauses of `Inv`, each kept by a lemma of its own. -/
theorem stepKeepsTheInvariant : Obligations.StepKeepsTheInvariant := by
  intro s t hs h
  exact ⟨step_arLegal hs h, (step_appendsLegal h).keeps hs.trace, step_phaseInv hs.phase h⟩

/-- Settles O9: the step commutes with the words offered; with the words of `s` itself, this says
they are kept. -/
theorem busyBlockIgnoresTheCommandPort : Obligations.BusyBlockIgnoresTheCommandPort := by
  intro s t ws hp h
  have hsame : step s = .next (offering s.cmds t) := step_offering hp h
  have ht : t = offering s.cmds t := Host.Outcome.next.inj (h.symm.trans hsame)
  exact ⟨(congrArg State.cmds ht : t.cmds = (offering s.cmds t).cmds), step_offering hp h⟩

/-- Settles O10: each way a step can go is an edge of R30's table, and of a poll the ready bit
decides the edge. -/
theorem phaseFollowsTheTable : Obligations.PhaseFollowsTheTable := by
  intro s t h
  refine ⟨?_, fun k hk => ?_⟩
  · cases step_cases h with
    | wait hp ht => simp [ht, hp, phaseName]
    | refuse hp ht => simp [ht, hp, phaseName, refuseWord, raiseIllegal]
    | command i hp h => simpa [hp, phaseName] using exec_phaseName h
    | start i hp h => simpa [hp, phaseName] using exec_phaseName h
    | readBack hp ht => simp [ht, hp, phaseName, readBackStep]
    | readConv k hp ht =>
      rw [ht, hp, readConvStep]
      rcases finishRead_phaseName k (decode12 (readValue s)) (memRead Config.regConv s) with h0 | h1
      · rw [h0]
        simp [phaseName]
      · rw [h1]
        simp [phaseName]
    | settle hp ht => simp [ht, hp, phaseName, settleStep]
    | poll k hp ht =>
      rw [ht, hp, pollStep_eq]
      split <;> simp [phaseName]
    | pollWait k hp ht => simp [ht, hp, phaseName, pollDelayStep]
  · rw [step_poll hk, pollStep_eq] at h
    cases h
    show _ ↔ isReady (readValue s) = true
    split <;> simp [phaseName, *]

/-- Settles O44: only the end of a read command changes a gain index, and only VREADAR's plan
reaches the comparator. -/
theorem whoWritesTheRegisters : Obligations.WhoWritesTheRegisters := by
  refine ⟨fun i s t h => ⟨exec_addr h, fun j hj => exec_ar h hj⟩, fun s t h hidle hstart => ?_⟩
  cases step_cases h with
  | wait hp | refuse hp | command _ hp => exact absurd hp hidle
  | start i hp => exact absurd hp (hstart i)
  | readBack hp ht | settle hp ht | pollWait k hp ht =>
    exact ht ▸ ⟨rfl, rfl, fun j hj => absurd rfl hj⟩
  | poll k hp ht =>
    rw [ht, pollStep_eq]
    exact ⟨rfl, rfl, fun j hj => absurd rfl hj⟩
  | readConv k hp ht =>
    obtain ⟨hcfg, haddr, -, -, hslot⟩ :=
      finishRead_frame k (decode12 (readValue s)) (memRead Config.regConv s)
    refine ht ▸ ⟨hcfg, haddr, fun j hj => ?_⟩
    obtain ⟨g, rfl⟩ := hslot j hj
    exact ⟨g, hp⟩

/-- Settles O46: of the steps of a waiting phase only the read-back and the sample can respond. -/
theorem responseComesWithIdle : Obligations.ResponseComesWithIdle := by
  intro s t h
  cases step_cases h with
  | wait hp ht =>
    exact ⟨fun hb => absurd (ht ▸ hp) hb, fun hb => absurd hp hb⟩
  | refuse hp ht =>
    exact ⟨fun hb => absurd (ht ▸ rfl) hb, fun hb => absurd hp hb⟩
  | command i hp h =>
    exact ⟨exec_response (s := acceptCommand i s) h, fun hb => absurd hp hb⟩
  | start i hp h =>
    exact ⟨exec_response h, fun _ hb => absurd hp (hb i)⟩
  | readBack hp ht => exact ht ▸ ⟨fun hb => absurd rfl hb, fun _ _ _ => rfl⟩
  | readConv k hp ht =>
    obtain ⟨hbusy, hidle⟩ :=
      finishRead_response k (decode12 (readValue s)) (memRead Config.regConv s)
    exact ht ▸ ⟨hbusy, fun _ _ => hidle⟩
  | settle hp ht | pollWait k hp ht => exact ht ▸ ⟨fun _ => ⟨rfl, rfl⟩, nofun⟩
  | poll k hp ht =>
    rw [ht, pollStep_eq]
    refine ⟨fun _ => ⟨rfl, rfl⟩, fun _ _ hb => ?_⟩
    rw [setPhase_phase] at hb
    split at hb <;> cases hb

/-- Settles O47: were the operand's bit set, the start bit would stay set. -/
theorem startBitIsClearedOnlyByHand : Obligations.StartBitIsClearedOnlyByHand := by
  intro i s t h hset hclear
  by_contra hnot
  push Not at hnot
  obtain ⟨hsetf, hsetw⟩ := hnot
  have hkept : osOf t.cfg = 1#1 := exec_startBit h hset
    (fun v hv => by simpa using hsetf v hv) (fun w hw => by simpa using hsetw w hw)
  rw [hclear] at hkept
  cases hkept

/-- Settles O6: accepting the command takes the word from the port and sets the phase, no more. -/
theorem stepRunsTheDecodedCommand : Obligations.StepRunsTheDecodedCommand := by
  intro s c rest i hp hc hd
  rw [step_command hp hc hd, acceptCommand, takeWord, hc]
  rfl

/-- Settles O12: `AR_INIT` is bounded by its type, the trace is empty, the block is idle. -/
theorem resetMeetsTheInvariant : Obligations.ResetMeetsTheInvariant :=
  ⟨reset_arLegal, nofun, phaseInv_of_idle rfl⟩

/-- Settles O13: the bound of `AR_INIT` fits three bits, so the indices are its values. -/
theorem resetLeavesTheStatedValues : Obligations.ResetLeavesTheStatedValues :=
  ⟨rfl, rfl, fun i => ⟨reset_ar i, reset_arLegal i⟩, rfl, rfl, rfl, rfl⟩

end Sys2Proof.Machine
end

section
/-! SUPPORT. What crosses the transport: the events a step writes, and the bytes of a value on the
wire: the proofs of the statements about the transport (20_memory.md). -/

namespace Sys2Proof.Machine

variable {s t : State} {i : Instr} {es es' : List Event} {a : BusAddr} {r : RegAddr} {v : Half}

/-! ## The events of a step -/

/-- The events a step adds are fixed by the two traces. -/
theorem appendedEvents_unique (h : t.trace = s.trace ++ es) (h' : t.trace = s.trace ++ es') :
    es = es' :=
  List.append_cancel_left (h.symm.trans h')

/-- The word a command's configuration write carries when it leaves `cfg` in the cache: the whole
of it, but for RESTORE's, whose start bit is clear (41_controller_setup.md R122, R123). -/
def sentWord (i : Instr) (cfg : Half) : Half := if i = .restore then cfg &&& 0x7FFF#16 else cfg

theorem sentWord_of_ne {cfg : Half} (h : i ≠ .restore) : sentWord i cfg = cfg := if_neg h

/-- RESTORE reads nothing (R122). -/
theorem ne_restore_of_readPlan {p : Resume × BitVec 3 × BitVec 3} (h : readPlan i s = some p) :
    i ≠ .restore := by
  rintro rfl
  cases h

/-- A write among the events of a sample carries the whole cache (42_conversion.md R140). -/
theorem sampled_writes {wrote : Bool} {m g : BitVec 3}
    (ht : (sampled wrote m g s).trace = s.trace ++ es) (hw : .write a r v ∈ es) :
    a = s.addr ∧ v = (sampled wrote m g s).cfg := by
  cases appendedEvents_unique ht (List.append_assoc ..)
  cases wrote
  · simp at hw
  · simp only [if_true, List.mem_append, List.mem_singleton, Event.write.injEq, reduceCtorEq,
      or_false] at hw
    obtain ⟨ha, -, hv⟩ := hw
    exact ⟨ha, hv⟩

/-- A write of a command goes to the address the command leaves, with the word it sends of the
cache it leaves (20_memory.md R51, 10_state.md R22). -/
theorem exec_writes (h : exec i s = .next t) (ht : t.trace = s.trace ++ es)
    (hw : .write a r v ∈ es) : a = t.addr ∧ v = sentWord i t.cfg := by
  have single : ∀ w, t.trace = s.trace ++ [.write t.addr Config.regCfg w] → a = t.addr ∧ v = w := by
    intro w hone
    cases appendedEvents_unique ht hone
    simp only [List.mem_singleton, Event.write.injEq] at hw
    obtain ⟨ha, -, hv⟩ := hw
    exact ⟨ha, hv⟩
  rcases exec_cases h with ⟨a', rfl, rfl⟩ | ⟨k, m, g, hplan, -, rfl⟩ |
    ⟨k, m, g, w, hplan, -, rfl⟩ | ⟨-, -, c, es', st, v', rfl, hes⟩
  · exact single _ rfl
  · rw [sentWord_of_ne (ne_restore_of_readPlan hplan)]
    exact single _ rfl
  · obtain ⟨hcfg, haddr, htrace, -⟩ :=
      finishRead_frame k (decode12 (readValue s)) (sampled w m g s)
    rw [sentWord_of_ne (ne_restore_of_readPlan hplan), hcfg, haddr]
    exact sampled_writes (s := s) (htrace.symm.trans ht) hw
  · rcases hes with rfl | ⟨rfl, hi⟩ | ⟨rfl, -, rfl⟩
    · cases appendedEvents_unique ht rfl
      cases hw
    · rw [sentWord_of_ne hi]
      exact single _ rfl
    · exact single _ rfl

/-- A step of a waiting phase adds one event, and it is not a write (10_state.md R30). -/
theorem waitingStep_event (h : step s = .next t) (hidle : s.phase ≠ .idle)
    (hstart : ∀ i, s.phase ≠ .exec (.start i)) :
    ∃ e, t.trace = s.trace ++ [e] ∧ ∀ a r v, e ≠ .write a r v := by
  cases step_cases h with
  | wait hp | refuse hp | command _ hp => exact absurd hp hidle
  | start i hp => exact absurd hp (hstart i)
  | readBack hp ht | settle hp ht | pollWait k hp ht => exact ht ▸ ⟨_, rfl, nofun⟩
  | readConv k hp ht => exact ht ▸ ⟨_, readConvStep_trace, nofun⟩
  | poll k hp ht => exact ht ▸ pollStep_eq ▸ ⟨_, rfl, nofun⟩

/-! ## The bytes of a value -/

/-- The first byte of a reply weighs 256: the halves do not overlap (20_memory.md R53). -/
theorem wordOfReply_two_toNat (b0 b1 : Byte) :
    (wordOfReply (.two b0 b1)).toNat = b0.toNat * 256 + b1.toNat := by
  have hhigh : b0.toNat <<< 8 < 2 ^ 16 := by
    rw [Nat.shiftLeft_eq]
    omega
  have hor : b0.toNat <<< 8 ||| b1.toNat = b0.toNat * 256 + b1.toNat := by
    rw [← Nat.shiftLeft_add_eq_or_of_lt b1.isLt, Nat.shiftLeft_eq]
  simp only [wordOfReply, BitVec.toNat_or, BitVec.toNat_shiftLeft, BitVec.toNat_setWidth]
  rw [Nat.mod_eq_of_lt (a := b0.toNat) (by omega), Nat.mod_eq_of_lt (a := b1.toNat) (by omega),
    Nat.mod_eq_of_lt hhigh, hor]

/-! ## The statements -/

/-- Settles O45: the traces fix the events added, so legality and the writes are two lemmas about
the same list. -/
theorem stepWritesOnlyTheCache : Obligations.StepWritesOnlyTheCache := by
  refine ⟨fun i s t h => ?_, fun s t h => ?_⟩
  · obtain ⟨es, ht, hlegal⟩ := exec_appendsLegal h
    refine ⟨es, ht, fun e he => ⟨hlegal e he, ?_⟩⟩
    rintro a r v rfl
    exact exec_writes h ht he
  · obtain ⟨es, ht, hlegal⟩ := step_appendsLegal h
    refine ⟨es, ht, hlegal, fun hidle hstart a r v hw => ?_⟩
    obtain ⟨e, hone, hnot⟩ := waitingStep_event h hidle hstart
    cases appendedEvents_unique ht hone
    exact hnot a r v (List.mem_singleton.1 hw).symm

/-- Settles O48: a value's two bytes read back as the value, and a reply reads by the weights of its
bytes, so the bytes weigh the value. -/
theorem wireIsBigEndian : Obligations.WireIsBigEndian := by
  refine ⟨fun v => ⟨?_, wordOfReply_wireBytes⟩, wordOfReply_two_toNat, rfl⟩
  rw [← wordOfReply_two_toNat, wordOfReply_wireBytes]

end Sys2Proof.Machine
end

section
/-! SUPPORT. The row that selects a word, the operands read from the row's words and the words that
have none: the proofs of the statements about the encoding (30_encoding.md). -/

namespace Sys2Proof.Machine

variable {c : Word} {o o' : Opcode} {i : Instr}

/-! ## The row that selects a word -/

/-- At most one row selects a word: the row its `op` byte names (30_encoding.md R82). -/
theorem selects_unique (h : o.selects c = true) (h' : o'.selects c = true) : o = o' := by
  have hop : opPart o.pattern = opPart o'.pattern := (selects_op h).symm.trans (selects_op h')
  have hbyte : some o = some o' := by rw [← ofByte_pattern o, hop, ofByte_pattern]
  exact Option.some.inj hbyte

/-- The parts of a word a row selects: the row's `op`, and no must-be-zero bit (R82). -/
theorem selects_parts (h : o.selects c = true) : opPart c = opPart o.pattern ∧
    aPart c &&& aPart o.mask = 0#8 ∧ immPart c &&& immPart o.mask = 0#16 := by
  have hop : opPart c = opPart o.pattern := selects_op h
  have hmask : o.mask = assemble 0xFF#8 (aPart o.mask) (immPart o.mask) := by cases o <;> decide
  have hpattern : o.pattern = assemble (opPart o.pattern) 0#8 0#16 := by cases o <;> decide
  have hrow : assemble (opPart c) (aPart c) (immPart c) &&&
      assemble 0xFF#8 (aPart o.mask) (immPart o.mask) = assemble (opPart c) 0#8 0#16 := by
    rw [assemble_parts, ← hmask, hop, ← hpattern]
    exact beq_iff_eq.1 h
  exact ⟨hop, assemble_matches.1 hrow⟩

/-- The decoder reads a word by the row that selects it (R92). -/
theorem decode_of_selects (h : o.selects c = true) : decode c = o.operands c := by
  simp [decode, selects_op h, ofByte_pattern, h]

/-- A word that no row selects has no command (R83 (a)). -/
theorem decode_of_no_row (h : ∀ o : Opcode, o.selects c = false) : ∃ r, decode c = .error r := by
  unfold decode
  cases Opcode.ofByte (opPart c) with
  | none => exact ⟨_, rfl⟩
  | some o => exact ⟨.mustBeZeroBitSet, by simp [h o]⟩

/-- A word the decoder accepts is a word of some row. -/
theorem exists_row_of_decode (h : decode c = .ok i) :
    ∃ o : Opcode, o.selects c = true ∧ o.operands c = .ok i := by
  by_cases hrow : ∃ o : Opcode, o.selects c = true
  · obtain ⟨o, ho⟩ := hrow
    exact ⟨o, ho, decode_of_selects ho ▸ h⟩
  · obtain ⟨r, hr⟩ := decode_of_no_row (c := c) (by simpa using hrow)
    rw [h] at hr
    cases hr

/-! ## The operands of a command's own word -/

/-- The operands put into a word are read back from it by the command's row (R79, R81). -/
theorem operands_encode (h : i.wellFormed = true) : i.opcode.operands (encode i) = .ok i := by
  cases i with
  | getf f => simp [Instr.opcode, Opcode.operands, encode, fOperand]
  | setf f v =>
    have hf : f ≠ .rsvd := by simpa [Instr.wellFormed] using h
    cases f <;> simp_all [Instr.opcode, Opcode.operands, encode, fOperand]
  | getw | reset | restore | rawread => rfl
  | setw w => simp [Instr.opcode, Opcode.operands, encode]
  | begin addr => simp [Instr.opcode, Opcode.operands, encode, addrOperand]
  | setfsr v wi | setmux v wi | setrate v wi =>
    simp [Instr.opcode, Opcode.operands, encode, lowOperand, wiOperand]
  | setmode mode wi => simp [Instr.opcode, Opcode.operands, encode, modeOperand, wiOperand]
  | readch ch | vread ch | vreadar ch =>
    simp [Instr.opcode, Opcode.operands, encode, lowOperand]
  | readfsr g => simp [Instr.opcode, Opcode.operands, encode, gOperand]
  | readchfsr ch g => simp [Instr.opcode, Opcode.operands, encode, lowOperand, gOperand]
  | getfrv g | getres g =>
    have hg : g.toNat ≤ 5 := by simpa [Instr.wellFormed] using h
    simp [Instr.opcode, Opcode.operands, encode, gOperand, hg]

/-! ## The word of the operands read -/

/-- A part whose every bit must be zero is zero. -/
theorem zero_back {n : Nat} {x : BitVec n} (h : x &&& BitVec.allOnes n = 0#n) : 0#n = x := by
  rw [← h, BitVec.and_allOnes]

/-- The two rows with a field id accept what the id names, SETF all but RSVD (R83 (b), (c)). -/
theorem operands_getf_ok (h : Opcode.getf.operands c = .ok i) :
    ∃ f, Field.ofId (fOperand c) = some f ∧ i = .getf f := by
  simp only [Opcode.operands] at h
  split at h
  · next f hf => exact ⟨f, hf, (Except.ok.inj h).symm⟩
  · cases h

theorem operands_setf_ok (h : Opcode.setf.operands c = .ok i) :
    ∃ f, Field.ofId (fOperand c) = some f ∧ f ≠ .rsvd ∧ i = .setf f (immPart c) := by
  simp only [Opcode.operands] at h
  split at h
  · cases h
  · next f hne hf => exact ⟨f, hf, hne, (Except.ok.inj h).symm⟩
  · cases h

/-- The checks of a row leave well-formed commands only (R83). -/
theorem operands_wellFormed (h : o.operands c = .ok i) : i.wellFormed = true := by
  cases o
  case getf =>
    obtain ⟨f, -, rfl⟩ := operands_getf_ok h
    rfl
  case setf =>
    obtain ⟨f, -, hf, rfl⟩ := operands_setf_ok h
    simpa [Instr.wellFormed] using hf
  case getfrv | getres =>
    simp only [Opcode.operands] at h
    split at h
    · next hg =>
      cases h
      exact decide_eq_true hg
    · cases h
  all_goals
    cases h
    rfl

/-- The operands a row reads from its word hold all the word's bits (R82). -/
theorem encode_of_operands (hsel : o.selects c = true) (h : o.operands c = .ok i) :
    encode i = c := by
  obtain ⟨hop, ha, hi⟩ := selects_parts hsel
  rw [← assemble_parts c, hop]
  cases o
  case getf =>
    obtain ⟨f, hf, rfl⟩ := operands_getf_ok h
    exact assemble_inj.2 ⟨rfl, id_back ha hf, zero_back hi⟩
  case setf =>
    obtain ⟨f, hf, -, rfl⟩ := operands_setf_ok h
    exact assemble_inj.2 ⟨rfl, id_back ha hf, rfl⟩
  case getw | reset | restore | rawread =>
    cases h
    exact assemble_inj.2 ⟨rfl, zero_back ha, zero_back hi⟩
  case setw =>
    cases h
    exact assemble_inj.2 ⟨rfl, zero_back ha, rfl⟩
  case begin =>
    cases h
    exact assemble_inj.2 ⟨rfl, zero_back ha, low7_back hi⟩
  case setfsr | setmux | setrate =>
    cases h
    exact assemble_inj.2 ⟨rfl, wi_back ha, low3_back hi⟩
  case setmode =>
    cases h
    exact assemble_inj.2 ⟨rfl, wi_back ha, low1_back hi⟩
  case readch | vread | vreadar =>
    cases h
    exact assemble_inj.2 ⟨rfl, zero_back ha, low3_back hi⟩
  case readfsr =>
    cases h
    exact assemble_inj.2 ⟨rfl, zero_back ha, g_back hi⟩
  case readchfsr =>
    cases h
    exact assemble_inj.2 ⟨rfl, zero_back ha, both_back hi⟩
  case getfrv | getres =>
    simp only [Opcode.operands] at h
    split at h
    · cases h
      exact assemble_inj.2 ⟨rfl, zero_back ha, g_back hi⟩
    · cases h

/-! ## The words that are refused -/

/-- The operands the checks (b), (c), (d) of R83 refuse, row by row. -/
def badOperand : Opcode → Word → Prop
  | .getf, c => 6 ≤ (c.extractLsb' 16 3).toNat
  | .setf, c => 5 ≤ (c.extractLsb' 16 3).toNat
  | .getfrv, c | .getres, c => 6 ≤ (c.extractLsb' 8 3).toNat
  | _, _ => False

theorem fOperand_eq : fOperand c = c.extractLsb' 16 3 := by
  apply BitVec.eq_of_getLsbD_eq
  intro i hi
  interval_cases i <;> simp [fOperand, aPart]

theorem gOperand_eq : gOperand c = c.extractLsb' 8 3 := by
  apply BitVec.eq_of_getLsbD_eq
  intro i hi
  interval_cases i <;> simp [gOperand, immPart]

theorem ofId_eq_none {f : BitVec 3} : Field.ofId f = none ↔ 6 ≤ f.toNat := by
  revert f
  decide

theorem ofId_eq_rsvd {f : BitVec 3} : Field.ofId f = some .rsvd ↔ f.toNat = 5 := by
  revert f
  decide

/-- A row refuses its word exactly when an operand is bad. -/
theorem operands_error_iff : (∃ r, o.operands c = .error r) ↔ badOperand o c := by
  cases o
  case getf =>
    simp only [badOperand, ← fOperand_eq, ← ofId_eq_none, Opcode.operands]
    cases Field.ofId (fOperand c) <;> simp
  case setf =>
    have hbad : 5 ≤ (fOperand c).toNat ↔
        Field.ofId (fOperand c) = none ∨ Field.ofId (fOperand c) = some .rsvd := by
      rw [ofId_eq_none, ofId_eq_rsvd]
      omega
    simp only [badOperand, ← fOperand_eq, hbad, Opcode.operands]
    split <;> simp_all
  case getfrv | getres =>
    have hbad : 6 ≤ (gOperand c).toNat ↔ ¬ (gOperand c).toNat ≤ 5 := Nat.not_le.symm
    simp only [badOperand, ← gOperand_eq, hbad, Opcode.operands]
    split <;> simp_all
  all_goals simp [badOperand, Opcode.operands]

/-- A word is refused when no row selects it, or the row that does finds a bad operand (R83). -/
theorem decode_error_iff : (∃ r, decode c = .error r) ↔
    (∀ o : Opcode, o.selects c = false) ∨ ∃ o : Opcode, o.selects c = true ∧ badOperand o c := by
  by_cases hrow : ∃ o : Opcode, o.selects c = true
  · obtain ⟨o, ho⟩ := hrow
    rw [decode_of_selects ho, operands_error_iff]
    constructor
    · exact fun hbad => .inr ⟨o, ho, hbad⟩
    · rintro (hnone | ⟨o', ho', hbad⟩)
      · exact absurd ho (by simp [hnone o])
      · exact selects_unique ho ho' ▸ hbad
  · have hnone : ∀ o : Opcode, o.selects c = false := by simpa using hrow
    exact ⟨fun _ => .inl hnone, fun _ => decode_of_no_row hnone⟩

/-- The decoder's rows are the spec's, in the table's order (R82). -/
theorem rows_eq_commandRows : (Opcode.all.map fun o => (o.pattern, o.mask)) = commandRows := rfl

theorem selects_eq_false : o.selects c = false ↔ c &&& o.mask ≠ o.pattern := by
  simp [Opcode.selects]

/-- No row of the spec's table matches a word exactly when none of the decoder's selects it. -/
theorem no_commandRow_iff : (∀ p ∈ commandRows, c &&& p.2 ≠ p.1) ↔
    ∀ o : Opcode, o.selects c = false := by
  have hall : ∀ o : Opcode, o ∈ Opcode.all := by intro o; cases o <;> decide
  rw [← rows_eq_commandRows, List.forall_mem_map]
  exact ⟨fun h o => selects_eq_false.2 (h o (hall o)), fun h o _ => selects_eq_false.1 (h o)⟩

/-- The four rows with an operand to refuse, as R83 (b), (c), (d) write them. -/
theorem exists_badOperand_iff : (∃ o : Opcode, o.selects c = true ∧ badOperand o c) ↔
    (c &&& 0xFFF8FFFF#32 = 0x01000000#32 ∧ 6 ≤ (c.extractLsb' 16 3).toNat) ∨
    (c &&& 0xFFF80000#32 = 0x02000000#32 ∧ 5 ≤ (c.extractLsb' 16 3).toNat) ∨
    ((c &&& 0xFFFFF8FF#32 = 0x42000000#32 ∨ c &&& 0xFFFFF8FF#32 = 0x43000000#32) ∧
      6 ≤ (c.extractLsb' 8 3).toNat) := by
  constructor
  · rintro ⟨o, hsel, hbad⟩
    have hrow : c &&& o.mask = o.pattern := beq_iff_eq.1 hsel
    cases o
    case getf => exact .inl ⟨hrow, hbad⟩
    case setf => exact .inr (.inl ⟨hrow, hbad⟩)
    case getfrv => exact .inr (.inr ⟨.inl hrow, hbad⟩)
    case getres => exact .inr (.inr ⟨.inr hrow, hbad⟩)
    all_goals exact hbad.elim
  · rintro (⟨hrow, hbad⟩ | ⟨hrow, hbad⟩ | ⟨hrow | hrow, hbad⟩)
    · exact ⟨.getf, beq_iff_eq.2 hrow, hbad⟩
    · exact ⟨.setf, beq_iff_eq.2 hrow, hbad⟩
    · exact ⟨.getfrv, beq_iff_eq.2 hrow, hbad⟩
    · exact ⟨.getres, beq_iff_eq.2 hrow, hbad⟩

/-! ## The value of a packed word -/

/-- A word is the sum of its fields at their positions (30_encoding.md R71). -/
theorem fields_toNat_sum (w : Half) : w.toNat = (osOf w).toNat * 2 ^ 15 +
    (muxOf w).toNat * 2 ^ 12 + (fsrOf w).toNat * 2 ^ 9 + (modeOf w).toNat * 2 ^ 8 +
    (drOf w).toNat * 2 ^ 5 + (rsvdOf w).toNat := by
  have hw : w.toNat < 2 ^ 16 := w.isLt
  simp only [osOf, muxOf, fsrOf, modeOf, drOf, rsvdOf, BitVec.extractLsb'_toNat,
    Nat.shiftRight_eq_div_pow]
  omega

theorem pack_toNat {os mode : BitVec 1} {mux fsr dr : BitVec 3} {rsvd : BitVec 5} :
    (pack os mux fsr mode dr rsvd).toNat = os.toNat * 2 ^ 15 + mux.toNat * 2 ^ 12 +
      fsr.toNat * 2 ^ 9 + mode.toNat * 2 ^ 8 + dr.toNat * 2 ^ 5 + rsvd.toNat := by
  rw [fields_toNat_sum (pack os mux fsr mode dr rsvd), osOf_pack, muxOf_pack, fsrOf_pack,
    modeOf_pack, drOf_pack, rsvdOf_pack]

/-! ## The statements -/

/-- Settles O1: the command's row selects its word, and reads back the operands put there. -/
theorem decodeOfEncodeIsTheCommand : Obligations.DecodeOfEncodeIsTheCommand := by
  intro i hi
  obtain ⟨-, hsel⟩ := Laws.rowSelected_all i
  rw [decode_of_selects hsel, operands_encode hi]

/-- Settles O2: an accepted word is a row's, and its operands hold every bit the row leaves free. -/
theorem encodeOfDecodeIsTheWord : Obligations.EncodeOfDecodeIsTheWord := by
  intro c i h
  obtain ⟨o, hsel, hop⟩ := exists_row_of_decode h
  exact ⟨operands_wellFormed hop, encode_of_operands hsel hop⟩

/-- Settles O3: no row selects the word, or its row finds a bad operand. -/
theorem illegalWordsAreRefused : Obligations.IllegalWordsAreRefused := by
  refine ⟨fun c => ?_, ⟨_, rfl⟩, ⟨_, rfl⟩, fun s c rest r hp hc hd => ?_⟩
  · rw [decode_error_iff, no_commandRow_iff, exists_badOperand_iff]
  · rw [step_illegal hp hc hd, refuseWord, takeWord, hc]
    rfl

/-- Settles O4: a row selects only words of its own `op` byte. -/
theorem noTwoRowsMatchOneWord : Obligations.NoTwoRowsMatchOneWord :=
  ⟨fun _ _ _ => selects_unique, rows_eq_commandRows, fun _ _ => decode_of_selects⟩

/-- Settles O5: each worked word is evaluated. -/
theorem workedEncodingsDecode : Obligations.WorkedEncodingsDecode := by
  unfold Obligations.WorkedEncodingsDecode
  decide

/-- Settles O17: a word unpacks to what was packed, and any word is the sum of its fields. -/
theorem packAndUnpackAgree : Obligations.PackAndUnpackAgree :=
  ⟨fun _ _ _ _ _ _ => ⟨pack_toNat, osOf_pack, muxOf_pack, fsrOf_pack, modeOf_pack, drOf_pack,
    rsvdOf_pack⟩, fun _ => pack_fields, rfl⟩

end Sys2Proof.Machine
end

section
/-! SUPPORT. The fields of the configuration word bit by bit, and the commands on the cache: the
proofs of the statements about the configuration register (40_config_register.md). -/

namespace Sys2Proof.Machine

variable {f : Field} {v cfg : Half} {i : Nat}

/-! ## The bits a field covers -/

/-- Bit `i` of the configuration word is one of `f`'s (10_state.md R26). -/
def coversBit (f : Field) (i : Nat) : Prop := fieldPos f ≤ i ∧ i < fieldPos f + fieldWidth f

theorem lt_of_coversBit (h : coversBit f i) : i < 16 := by
  have hle : fieldPos f + fieldWidth f ≤ 16 := by cases f <;> decide
  exact Nat.lt_of_lt_of_le h.2 hle

/-- The mask of a field holds the bits of the field. -/
theorem fieldMask_getLsbD : (fieldMask f).getLsbD i = true ↔ coversBit f i := by
  by_cases hi : i < 16
  · have key : ∀ j : Fin 16, (fieldMask f).getLsbD j = true ↔
        fieldPos f ≤ j ∧ j < fieldPos f + fieldWidth f := by
      cases f <;> decide
    exact key ⟨i, hi⟩
  · have hout : ¬ coversBit f i := fun h => hi (lt_of_coversBit h)
    simp [hout, BitVec.getLsbD_of_ge, Nat.le_of_not_lt hi]

theorem fieldMask_disjoint {f' : Field} (hf : f' ≠ f) : fieldMask f &&& fieldMask f' = 0#16 := by
  revert hf
  cases f <;> cases f' <;> decide

/-- No bit belongs to two fields. -/
theorem not_coversBit_of_ne {f' : Field} (hf : f' ≠ f) (h : coversBit f' i) :
    ¬ coversBit f i := by
  rw [← fieldMask_getLsbD, Bool.not_eq_true]
  exact and_eq_zero_bit (fieldMask_disjoint hf) i (fieldMask_getLsbD.2 h)

/-! ## Reading and writing a field, bit by bit -/

theorem getLsbD_of_fits (h : v.toNat < 2 ^ fieldWidth f) (hi : fieldWidth f ≤ i) :
    v.getLsbD i = false :=
  Nat.testBit_lt_two_pow (Nat.lt_of_lt_of_le h (Nat.pow_le_pow_right (by decide) hi))

/-- `GetField` moves the field's bits down to bit 0 (40_config_register.md R101). -/
theorem getField_getLsbD : (getField f cfg).getLsbD i =
    (decide (i < fieldWidth f) && cfg.getLsbD (fieldPos f + i)) := by
  have hmask : (fieldMask f).getLsbD (fieldPos f + i) = decide (i < fieldWidth f) := by
    rw [Bool.eq_iff_iff, fieldMask_getLsbD, decide_eq_true_iff, coversBit]
    omega
  rw [getField, BitVec.getLsbD_ushiftRight, BitVec.getLsbD_and, hmask, Bool.and_comm]

/-- A bit of the field `SetField` writes is the value's (R100). -/
theorem setField_getLsbD_of_covers (h : coversBit f i) :
    (setField f v cfg).getLsbD i = v.getLsbD (i - fieldPos f) := by
  have hmask := fieldMask_getLsbD.2 h
  have hi := lt_of_coversBit h
  have hlow := Nat.not_lt.2 h.1
  rw [setField, BitVec.getLsbD_or, BitVec.getLsbD_and, BitVec.getLsbD_not, hmask,
    BitVec.getLsbD_shiftLeft]
  simp [hi, hlow]

/-- Any other bit stays, when the value fits the field (R100 (a)). -/
theorem setField_getLsbD_of_not_covers (hv : v.toNat < 2 ^ fieldWidth f) (h : ¬ coversBit f i)
    (hi : i < 16) : (setField f v cfg).getLsbD i = cfg.getLsbD i := by
  have hmask : (fieldMask f).getLsbD i = false := by
    rwa [← Bool.not_eq_true, fieldMask_getLsbD]
  have hshift : (v <<< fieldPos f).getLsbD i = false := by
    by_cases hlow : i < fieldPos f
    · simp [hlow]
    · have hhigh : fieldWidth f ≤ i - fieldPos f := by
        unfold coversBit at h
        omega
      simp [getLsbD_of_fits hv hhigh]
  rw [setField, BitVec.getLsbD_or, BitVec.getLsbD_and, BitVec.getLsbD_not, hmask, hshift,
    decide_eq_true hi]
  simp

/-! ## The laws of a field (R106) -/

theorem getField_fits (f : Field) (cfg : Half) : (getField f cfg).toNat < 2 ^ fieldWidth f := by
  apply Nat.lt_pow_two_of_testBit
  intro i hi
  rw [BitVec.testBit_toNat, getField_getLsbD, decide_eq_false (Nat.not_lt.2 hi), Bool.false_and]

theorem getField_setField_same (hv : v.toNat < 2 ^ fieldWidth f) :
    getField f (setField f v cfg) = v := by
  apply BitVec.eq_of_getLsbD_eq
  intro i _
  rw [getField_getLsbD]
  by_cases hi : i < fieldWidth f
  · have hin : coversBit f (fieldPos f + i) := ⟨by omega, by omega⟩
    rw [setField_getLsbD_of_covers hin, Nat.add_sub_cancel_left, decide_eq_true hi, Bool.true_and]
  · rw [decide_eq_false hi, Bool.false_and, getLsbD_of_fits hv (Nat.le_of_not_lt hi)]

theorem getField_setField_of_ne {f' : Field} (hv : v.toNat < 2 ^ fieldWidth f) (hf : f' ≠ f) :
    getField f' (setField f v cfg) = getField f' cfg := by
  apply BitVec.eq_of_getLsbD_eq
  intro i _
  rw [getField_getLsbD, getField_getLsbD]
  by_cases hi : i < fieldWidth f'
  · have hin : coversBit f' (fieldPos f' + i) := ⟨by omega, by omega⟩
    rw [setField_getLsbD_of_not_covers hv (not_coversBit_of_ne hf hin) (lt_of_coversBit hin)]
  · rw [decide_eq_false hi, Bool.false_and, Bool.false_and]

theorem setField_setField (hv : v.toNat < 2 ^ fieldWidth f) :
    setField f v (setField f v cfg) = setField f v cfg := by
  apply BitVec.eq_of_getLsbD_eq
  intro i hi
  by_cases h : coversBit f i
  · rw [setField_getLsbD_of_covers h, setField_getLsbD_of_covers h]
  · rw [setField_getLsbD_of_not_covers hv h hi]

theorem setField_getField (f : Field) (cfg : Half) : setField f (getField f cfg) cfg = cfg := by
  apply BitVec.eq_of_getLsbD_eq
  intro i hi
  by_cases h : coversBit f i
  · rw [setField_getLsbD_of_covers h, getField_getLsbD]
    obtain ⟨hlow, hhigh⟩ := h
    rw [Nat.add_sub_cancel' hlow, decide_eq_true (by omega), Bool.true_and]
  · exact setField_getLsbD_of_not_covers (getField_fits f cfg) h hi

/-- The six fields, each at its place, add up to the word (30_encoding.md R71). -/
theorem getField_toNat_sum (cfg : Half) :
    (getField .os cfg).toNat * 2 ^ 15 + (getField .mux cfg).toNat * 2 ^ 12 +
      (getField .fsr cfg).toNat * 2 ^ 9 + (getField .mode cfg).toNat * 2 ^ 8 +
      (getField .dr cfg).toNat * 2 ^ 5 + (getField .rsvd cfg).toNat = cfg.toNat := by
  simp (disch := decide) only [getField_eq, BitVec.toNat_setWidth_of_le, fields_toNat_sum cfg]

/-! ## The commands on the cache -/

theorem exec_getf (f : Field) (s : State) :
    exec (.getf f) s = .next (responded .ok ((getField f s.cfg).setWidth 32) s) :=
  exec_eq (.getf f) s

/-- SETF of a field a command may write (R103). -/
theorem exec_setf_of_ne_rsvd (s : State) (hf : f ≠ .rsvd) :
    exec (.setf f v) s = .next (responded .ok 0#32 { s with cfg := setField f v s.cfg }) := by
  rw [exec_eq]
  simp only [if_neg hf]
  rfl

/-- `SetField` is the formula of R100 over the spec's masks and positions. -/
theorem setField_eq_specMask (f : Field) (v cfg : Half) : setField f v cfg =
    (cfg &&& ~~~(specMask f).1) ||| BitVec.ofNat 16 (v.toNat * 2 ^ (specMask f).2) := by
  have hspec : specMask f = (fieldMask f, fieldPos f) := by cases f <;> rfl
  have hshift : v <<< fieldPos f = BitVec.ofNat 16 (v.toNat * 2 ^ fieldPos f) := by
    rw [← Nat.shiftLeft_eq]
    rfl
  rw [hspec, setField, hshift]

/-! ## The statements -/

/-- Settles O14: `GetField` is the field view, and zero-extending twice is zero-extending once. -/
theorem getfRespondsTheField : Obligations.GetfRespondsTheField := by
  intro s
  simp (disch := decide) only [exec_getf, getField_eq, BitVec.setWidth_setWidth]
  exact ⟨rfl, rfl, rfl, rfl, rfl, rfl⟩

/-- Settles O15: the model's masks and positions are the spec's. -/
theorem setfAppliesTheFieldFormula : Obligations.SetfAppliesTheFieldFormula := by
  refine fun v s => ⟨fun f hf => ?_, rfl⟩
  rw [exec_setf_of_ne_rsvd s hf, setField_eq_specMask]

/-- Settles O16: the laws hold bit by bit, since the value lies within the field's bits and no bit
belongs to two fields. -/
theorem fieldLaws : Obligations.FieldLaws := fun f _ cfg hv =>
  ⟨getField_setField_same hv, fun _ hf => getField_setField_of_ne hv hf, setField_setField hv,
    setField_getField f cfg, getField_toNat_sum cfg⟩

/-- Settles O18: each command's equation, with GETW's word zero-extended. -/
theorem getwAndSetwMoveTheWholeWord : Obligations.GetwAndSetwMoveTheWholeWord := by
  refine fun s => ⟨?_, fun w => exec_eq (.setw w) s⟩
  rw [BitVec.ofNat_toNat]
  exact exec_eq .getw s

end Sys2Proof.Machine
end

section
/-! SUPPORT. The presence check, the configuration writes and the four setters in the terms the
statements use: the proofs of the statements about controller setup (41_controller_setup.md). -/

namespace Sys2Proof.Machine

variable {s : State} {cfg w : Half} {g m : BitVec 3} {wi : Bool}

/-! ## BEGIN and RESTORE -/

/-- BEGIN's two remaining steps in one equation (R120): the delay uses up no answer of the
device, so the value read back is the one that was due before it. -/
theorem readBackStep_settleStep : readBackStep (settleStep s) = responded .ok
    (if readValue s = 0x8583#16 then 1#32 else 0#32)
    { s with
      trace := s.trace ++ [.delay 10, .read s.addr 0x01#8 (readValue s)]
      replies := s.replies.tail
      reads := s.reads + 1 } := by
  have hv : readValue (settleStep s) = readValue s := readValueAt_congr rfl rfl 0
  have htrace : (memRead Config.regCfg (settleStep s)).trace =
      s.trace ++ [.delay 10, .read s.addr 0x01#8 (readValue s)] := by
    rw [memRead_trace, hv]
    exact List.append_assoc ..
  rw [readBackStep, hv, respond, htrace]
  rfl

/-- The word RESTORE sends is the cache with its start bit clear (R122). -/
theorem and_startMask_eq : cfg &&& 0x7FFF#16 =
    pack 0#1 (muxOf cfg) (fsrOf cfg) (modeOf cfg) (drOf cfg) (rsvdOf cfg) := by
  have hset : cfg &&& 0x7FFF#16 = setField .os 0#16 cfg := BitVec.or_zero.symm
  rw [hset]
  exact setField_os (v := 0#1)

/-! ## The setters -/

/-- A setter's new word: always into the cache, to the bus only when asked (R124 to R127). -/
theorem writeIf_setCfg : writeIf wi (setCfg w s) =
    if wi then configWritten w { s with cfg := w } else { s with cfg := w } := by
  cases wi <;> rfl

theorem exec_setfsr : exec (.setfsr g wi) s = .next (responded .ok 0#32 (setFsr g wi s)) :=
  exec_eq (.setfsr g wi) s

theorem exec_setmux : exec (.setmux m wi) s = .next (responded .ok 0#32 (setMux m wi s)) :=
  exec_eq (.setmux m wi) s

theorem exec_setmode {mode : BitVec 1} :
    exec (.setmode mode wi) s = .next (responded .ok 0#32 (setMode mode wi s)) :=
  exec_eq (.setmode mode wi) s

theorem exec_setrate {d : BitVec 3} :
    exec (.setrate d wi) s = .next (responded .ok 0#32 (setRate d wi s)) :=
  exec_eq (.setrate d wi) s

/-- After a setter its field has the value set, written or not. -/
theorem fsrOf_setFsr : fsrOf (setFsr g wi s).cfg = g := by
  rw [setFsr_eq, fsrOf_pack]

theorem muxOf_setMux : muxOf (setMux m wi s).cfg = m := by
  rw [setMux_eq, muxOf_pack]

/-- Setting the value a field has does nothing (R124 (a), R125). -/
theorem setFsr_of_fsr_eq (h : fsrOf s.cfg = g) : setFsr g wi s = s := if_pos h.symm

theorem setMux_of_mux_eq (h : muxOf s.cfg = m) : setMux m wi s = s := if_pos h.symm

/-- One event is the most a conditional write adds. -/
theorem length_append_ite_le {p : Prop} [Decidable p] (tr : List Event) (e : Event) :
    (tr ++ if p then [e] else []).length ≤ tr.length + 1 := by
  split <;> simp

/-- A deferred range change is a change of the cache alone (R130). -/
theorem setFsr_deferred : setFsr g false s = { s with
    cfg := pack (osOf s.cfg) (muxOf s.cfg) g (modeOf s.cfg) (drOf s.cfg) (rsvdOf s.cfg) } := by
  simp [setFsr_eq]

/-! ## The statements -/

/-- Settles O19: BEGIN's own step, then the settle delay and the read-back. -/
theorem beginProbesTheDevice : Obligations.BeginProbesTheDevice := by
  refine ⟨fun a s => exec_eq (.begin a) s, fun s hp => ?_⟩
  rw [← readBackStep_settleStep]
  exact .cons (step_settle hp) (.one (step_readBack rfl))

/-- Settles O20: RESTORE's mask clears the start bit and no other field. -/
theorem resetAndRestoreWriteTheConfiguration :
    Obligations.ResetAndRestoreWriteTheConfiguration := by
  refine fun s => ⟨exec_eq .reset s, ?_⟩
  rw [← and_startMask_eq]
  exact exec_eq .restore s

/-- Settles O21: the no-op test, then the write when asked. -/
theorem setfsrChangesTheRangeOnly : Obligations.SetfsrChangesTheRangeOnly := by
  intro g wi s w
  rw [exec_setfsr, setFsr, setField_fsr, writeIf_setCfg]
  rfl

/-- Settles O22: the no-op test, then the write when asked. -/
theorem setmuxChangesTheSelectionOnly : Obligations.SetmuxChangesTheSelectionOnly := by
  intro m wi s w
  rw [exec_setmux, setMux, setField_mux, writeIf_setCfg]
  rfl

/-- Settles O23: no test stands before the write. -/
theorem setmodeAlwaysWritesWhenAsked : Obligations.SetmodeAlwaysWritesWhenAsked := by
  intro mode wi s w
  rw [exec_setmode, setMode, setField_mode, writeIf_setCfg]

/-- Settles O24: the OR stays inside DR. -/
theorem setrateOnlySetsRateBits : Obligations.SetrateOnlySetsRateBits := by
  intro d wi s w
  rw [exec_setrate, setRate, orRate_eq, writeIf_setCfg]

/-- Settles O25: after the first command the field has the value, so the second does nothing. -/
theorem repeatedSetterWritesAtMostOnce : Obligations.RepeatedSetterWritesAtMostOnce := by
  refine fun x wi wi' s =>
    ⟨⟨_, _, exec_setmux, exec_setmux, ?_, ?_⟩, ⟨_, _, exec_setfsr, exec_setfsr, ?_, ?_⟩⟩
  · have hset : muxOf (responded .ok 0#32 (setMux x wi s)).cfg = x := muxOf_setMux
    rw [setMux_of_mux_eq hset]
    rfl
  · rw [setMux_eq]
    exact length_append_ite_le ..
  · have hset : fsrOf (responded .ok 0#32 (setFsr x wi s)).cfg = x := fsrOf_setFsr
    rw [setFsr_of_fsr_eq hset]
    rfl
  · rw [setFsr_eq]
    exact length_append_ite_le ..

/-- Settles O26: the deferred change leaves the mode, so RAWREAD triggers, and the trigger sends
the whole cache. -/
theorem deferredRangeRidesOnTheTrigger : Obligations.DeferredRangeRidesOnTheTrigger := by
  intro g s hmode
  have hkept : modeOf (responded .ok 0#32 (setFsr g false s)).cfg = 1#1 := by
    simp [responded, setFsr_deferred, hmode]
  refine ⟨_, _, _, exec_setfsr, exec_read_singleShot rfl hkept, ?_, ?_, osOf_pack, rfl⟩
  · rw [setFsr_deferred]
    rfl
  · rw [fsrOf_pack]
    exact fsrOf_setFsr

end Sys2Proof.Machine
end

section
/-! SUPPORT. The plans of the read commands, the run of the polls, the ends of a sample and the
result decoder: the proofs of the statements about conversion (42_conversion.md). -/

namespace Sys2Proof.Machine

variable {s : State} {i : Instr} {k : Resume} {m g ch : BitVec 3} {n : Nat} {r : Half}

/-! ## The plans of the read commands -/

/-- VREAD of a channel it takes (43_voltage_scaler.md R165). -/
theorem readPlan_vread (h : ch.toNat ≤ 3) :
    readPlan (.vread ch) s = some (.volt, ch ^^^ 4#3, fsrOf s.cfg) := by
  have hslot : autoSlot ch = some ⟨ch.toNat, by omega⟩ := dif_pos (by omega)
  simp only [readPlan, hslot]

/-- VREADAR of a slot's own channel (44_autorange.md R181). -/
theorem readPlan_vreadar_slot (i : Fin 4) : readPlan (.vreadar (slotChannel i)) s =
    some (.auto i s.ar[i], BitVec.ofNat 3 (i.val + 4), s.ar[i]) := by
  simp only [readPlan, autoSlot_slotChannel, slotChannel_mux]

/-- The raw reads are the plans that respond the code (42_conversion.md R146 to R149). -/
theorem readPlan_of_readSelection (h : readSelection i s.cfg = some (m, g)) :
    readPlan i s = some (.code, m, g) := by
  cases i with
  | rawread | readch | readfsr | readchfsr =>
    cases h
    rfl
  | _ => cases h

/-! ## The ends of a sample -/

/-- A raw read responds the code, sign-extended (R146). -/
theorem finishRead_code :
    finishRead .code (decode12 r) s = responded .ok (BitVec.ofInt 32 (codeOf r)) s := by
  rw [← signExtend_code]
  rfl

/-- In continuous mode a sample that changes no selection is a read of `REG_CONV` (R140). -/
theorem sampled_unchanged (h : modeOf s.cfg = 0#1) :
    sampled false (muxOf s.cfg) (fsrOf s.cfg) s = memRead Config.regConv s := by
  simp only [sampled, ← h, pack_fields]
  simp [memRead, emit, Config.regConv]

/-! ## The polls -/

/-- A short read is not ready (20_memory.md R57). -/
theorem not_ready_of_short (h : replyAt s 0 = .short) : (readValue s).getLsbD 15 = false := by
  rw [readValue, readValueAt, h]
  rfl

/-- `s` after `n` polls and a delay each: as many answers of the device used up (R142). -/
def polled (n : Nat) (s : State) : State :=
  { s with
    trace := s.trace ++ pollEvents s n
    replies := s.replies.drop n
    reads := s.reads + n }

theorem polled_zero : polled 0 s = s := by
  simp [polled, pollEvents]

theorem readValueAt_polled (j : Nat) : readValueAt (polled n s) j = readValueAt s (n + j) := by
  simp [readValueAt, replyAt, polled, Nat.add_assoc]

theorem readValue_polled : readValue (polled n s) = readValueAt s n :=
  readValueAt_polled 0

/-- The read of a register after `n` polls, and what it adds to the trace. -/
theorem memRead_polled {reg : RegAddr} : memRead reg (polled n s) =
    { s with
      trace := s.trace ++ pollEvents s n ++ [.read s.addr reg (readValueAt s n)]
      replies := s.replies.drop (n + 1)
      reads := s.reads + n + 1 } := by
  rw [memRead, readValue_polled, ← List.tail_drop]
  rfl

/-- A poll that finds the device not ready (R142, T5). -/
theorem pollStep_polled_notReady (h : (readValueAt s n).getLsbD 15 = false) :
    pollStep k (polled n s) = setPhase (.pollWait k) (memRead Config.regCfg (polled n s)) := by
  rw [pollStep_eq, readValue_polled, isReady, h]
  rfl

/-- A poll that finds it ready (R142, T4). -/
theorem pollStep_polled_ready (h : (readValueAt s n).getLsbD 15 = true) :
    pollStep k (polled n s) =
      setPhase (.exec (.readConv k)) (memRead Config.regCfg (polled n s)) := by
  rw [pollStep_eq, readValue_polled, isReady, h]
  rfl

/-- A poll that finds the device not ready, and its delay, make one more. -/
theorem polled_succ (hp : s.phase = .poll k) (h : (readValueAt s n).getLsbD 15 = false) :
    pollDelayStep k (pollStep k (polled n s)) = polled (n + 1) s := by
  rw [pollStep_polled_notReady h, memRead_polled, pollDelayStep_eq, ← hp]
  simp [setPhase, polled, pollEvents, Config.regCfg, Nat.add_assoc]

/-- The loop has no limit: two steps for each poll that finds the device not ready (R142). -/
theorem reaches_polled (hp : s.phase = .poll k)
    (h : ∀ j, j < n → (readValueAt s j).getLsbD 15 = false) :
    Reaches (2 * n) s (polled n s) := by
  induction n with
  | zero => exact polled_zero.symm
  | succ n ih =>
    have hn : (readValueAt s n).getLsbD 15 = false := h n n.lt_succ_self
    have hrun : Reaches (2 * n) s (polled n s) := ih fun j hj => h j (Nat.lt_succ_of_lt hj)
    have hwait : (pollStep k (polled n s)).phase = .pollWait k := by
      rw [pollStep_polled_notReady hn, setPhase_phase]
    rw [← polled_succ hp hn]
    exact hrun.trans (.cons (step_poll hp) (.one (step_pollWait hwait)))

/-- What the polls leave as it was while the command is in progress (60_exceptions.md R195). -/
def stillBusy (s t : State) : Prop :=
  t.phase ≠ .idle ∧ t.cmds = s.cmds ∧ t.status = s.status ∧ t.value = s.value ∧
    t.cfg = s.cfg ∧ t.addr = s.addr ∧ t.ar = s.ar

theorem stillBusy_polled (hp : s.phase = .poll k) : stillBusy s (polled n s) :=
  ⟨by simp [polled, hp], rfl, rfl, rfl, rfl, rfl, rfl⟩

theorem stillBusy_pollStep_polled : stillBusy s (pollStep k (polled n s)) := by
  rw [pollStep_eq]
  refine ⟨?_, rfl, rfl, rfl, rfl, rfl, rfl⟩
  rw [setPhase_phase]
  split <;> nofun

/-- At every step of the loop the command is still in progress: an even number of steps ends before
a poll, an odd one before a delay. -/
theorem reaches_stillBusy {m : Nat} (hp : s.phase = .poll k)
    (h : ∀ j, j < n → (readValueAt s j).getLsbD 15 = false) (hm : m ≤ 2 * n) :
    ∃ t, Reaches m s t ∧ stillBusy s t := by
  have hrun : ∀ {j}, j ≤ n → Reaches (2 * j) s (polled j s) := fun hj =>
    reaches_polled hp fun j' hj' => h j' (Nat.lt_of_lt_of_le hj' hj)
  obtain ⟨j, rfl | rfl⟩ := Nat.even_or_odd' m
  · exact ⟨_, hrun (by omega), stillBusy_polled hp⟩
  · exact ⟨_, (hrun (by omega)).trans (.one (step_poll hp)), stillBusy_pollStep_polled⟩

/-- `s` at the end of a read command that found the device not ready `n` times and then ready: its
polls made and its sample read (R142, R144). -/
def pollsAndSample (k : Resume) (n : Nat) (s : State) : State :=
  { s with
    phase := .exec (.readConv k)
    trace := s.trace ++ pollEvents s n ++
      [.read s.addr 0x01#8 (readValueAt s n), .read s.addr 0x00#8 (readValueAt s (n + 1))]
    replies := s.replies.drop (n + 2)
    reads := s.reads + n + 2 }

/-- The ready poll and the sample after the `n` polls. -/
theorem readConvStep_polled : readConvStep k
      (setPhase (.exec (.readConv k)) (memRead Config.regCfg (polled n s))) =
    finishRead k (decode12 (readValueAt s (n + 1))) (pollsAndSample k n s) := by
  have hv : readValue (setPhase (.exec (.readConv k)) (memRead Config.regCfg (polled n s))) =
      readValueAt s (n + 1) :=
    (readValueAt_memRead (s := polled n s) (r := Config.regCfg)).trans (readValueAt_polled 1)
  rw [memRead_polled] at hv ⊢
  rw [readConvStep, hv, memRead, hv]
  simp [setPhase, emit, pollsAndSample, Config.regCfg, Config.regConv]

/-- From its trigger a read command ends `2 n + 2` steps later, when the device is ready at the poll
after `n` others (R141 to R144). -/
theorem reaches_finishRead (hp : s.phase = .poll k)
    (h : ∀ j, j < n → (readValueAt s j).getLsbD 15 = false)
    (hready : (readValueAt s n).getLsbD 15 = true) : Reaches (2 * n + 2) s
      (finishRead k (decode12 (readValueAt s (n + 1))) (pollsAndSample k n s)) := by
  have hpoll := step_poll (s := polled n s) hp
  rw [pollStep_polled_ready hready] at hpoll
  rw [← readConvStep_polled]
  exact (reaches_polled hp h).trans (.cons hpoll (.one (step_readConv rfl)))

/-- The trigger uses up no answer of the device, so the polls after it are those due before it. -/
theorem pollEvents_triggered : pollEvents (triggered k m g s) n = pollEvents s n := by
  induction n with
  | zero => rfl
  | succ n ih =>
    rw [pollEvents, ih]
    rfl

/-! ## The result decoder -/

/-- The decoder takes the upper twelve bits and extends their sign (R145). -/
theorem decode12_eq_signExtend (r : Half) : decode12 r = (r.extractLsb' 4 12).signExtend 16 := by
  rw [decode12_eq_sshiftRight]
  apply BitVec.eq_of_getLsbD_eq
  intro i hi
  interval_cases i <;> simp [BitVec.getElem_sshiftRight, BitVec.getElem_signExtend,
    BitVec.msb_eq_getLsbD_last]

/-- Bit 15 of a result word is its sign. -/
theorem getLsbD_fifteen_eq_decide_neg (r : Half) : r.getLsbD 15 = decide (r.toInt < 0) := by
  rw [← BitVec.msb_eq_toInt, BitVec.msb_eq_getLsbD_last]

/-! ## The statements -/

/-- Settles O28: the plan of each read command, and a plan in single-shot mode is its trigger. -/
theorem singleShotReadTriggersOnce : Obligations.SingleShotReadTriggersOnce := fun _ h =>
  ⟨exec_read_singleShot rfl h, fun _ => exec_read_singleShot rfl h,
    fun _ => exec_read_singleShot rfl h, fun _ _ => exec_read_singleShot rfl h,
    fun _ hch => exec_read_singleShot (readPlan_vread hch) h,
    fun i => exec_read_singleShot (readPlan_vreadar_slot i) h⟩

/-- Settles O29: each read is its sample, and only a changed selection is written. -/
theorem continuousRawReadRespondsAtOnce : Obligations.ContinuousRawReadRespondsAtOnce := by
  refine fun s h => ⟨?_, fun ch => ?_, fun g => ?_, fun ch g => ?_⟩
  · rw [exec_eq, sampled_unchanged h, ← finishRead_code]
    exact congrArg _ (rawRead_continuous h)
  · rw [exec_eq, ← finishRead_code]
    exact congrArg _ (readCh_continuous h)
  · rw [exec_eq, ← finishRead_code]
    exact congrArg _ (readFsr_continuous h)
  · rw [exec_eq, ← finishRead_code]
    exact congrArg _ (readChFsr_continuous h)

/-- Settles O30: the poll's one equation, the delay's, and the value of a short read. -/
theorem pollTestsBitFifteenOnly : Obligations.PollTestsBitFifteenOnly := by
  refine fun k s => ⟨fun hp => ?_, step_pollWait, not_ready_of_short⟩
  rw [step_poll hp, pollStep_eq]
  rfl

/-- Settles O31: the run of `n` polls, and the two kinds of state on its way. -/
theorem pollLoopHasNoLimit : Obligations.PollLoopHasNoLimit := fun _ _ _ hp h =>
  ⟨reaches_polled hp h, fun _ => reaches_stillBusy hp h⟩

/-- Settles O32: the trigger, then the run of the polls up to the end of the read. -/
theorem singleShotReadCompletes : Obligations.SingleShotReadCompletes := by
  intro n i m g s hmode hsel hnot hready t
  refine ⟨exec_read_singleShot (readPlan_of_readSelection hsel) hmode, ?_⟩
  have hrun := reaches_finishRead (s := t) (k := .code) rfl hnot hready
  rw [finishRead_code, pollsAndSample, pollEvents_triggered] at hrun
  exact hrun

/-- Settles O34: the shift by four is the division, its sign is bit 15, and it reads the upper
twelve bits alone. -/
theorem decoderTakesTheUpperTwelveBits : Obligations.DecoderTakesTheUpperTwelveBits := by
  intro r
  obtain ⟨hlow, hhigh⟩ := decode12_range r
  have hdiv := decode12_toInt r
  rw [getLsbD_fifteen_eq_decide_neg, decide_eq_true_iff, decide_eq_false_iff_not]
  refine ⟨hdiv, fun hneg => ⟨hlow, by omega⟩, fun hnonneg => ⟨by omega, hhigh⟩, fun r' h => ?_⟩
  rw [decode12_eq_signExtend, h, ← decode12_eq_signExtend]

/-- Settles O38: each kind of read command has its end, and the sample is one read. -/
theorem sampleEndsTheReadCommand : Obligations.SampleEndsTheReadCommand := by
  intro k s hp c t
  rw [step_readConv hp, readConvStep]
  refine ⟨?_, ?_, ?_, ?_⟩
  · rintro rfl
    rw [finishRead_code]
    rfl
  · rintro rfl hg
    exact congrArg _ (respondScaled_defined hg)
  · rintro rfl hg
    exact congrArg _ (respondScaled_undefined hg)
  · rintro i g rfl hslot hg u
    exact congrArg _ (finishAuto_eq (s := memRead Config.regConv s) hslot hg)

end Sys2Proof.Machine
end

section
/-! SUPPORT. The two tables as lists, the scaler's bounds and oddness, the microvolts a read command
responds: the proofs of the statements about the voltage scaler (43_voltage_scaler.md). -/

namespace Sys2Proof.Machine

variable {s : State} {g ch : BitVec 3} {lsb : Nat} {r code : Half}

/-! ## The tables -/

/-- `FullRange_mV` as its table (R160). -/
theorem fullRangeMV_eq_getElem? (g : BitVec 3) :
    fullRangeMV g = [6144, 4096, 2048, 1024, 512, 256][g.toNat]? := by
  revert g
  decide

/-- `Lsb_uV` as its table (R161). -/
theorem lsbUV_eq_getElem? (g : BitVec 3) :
    lsbUV g = [3000, 2000, 1000, 500, 250, 125][g.toNat]? := by
  revert g
  decide

/-- A table command responds its entry, and is illegal past the table's end (R166, R167). -/
theorem respondTable_getElem? (table : List Nat) (n : Nat) : respondTable table[n]? s =
    if h : n < table.length then responded .ok (BitVec.ofNat 32 (table[n]'h)) s
    else responded .illegal 0#32 s := by
  split
  · next h =>
    rw [List.getElem?_eq_getElem h]
    rfl
  · next h =>
    rw [List.getElem?_eq_none (Nat.le_of_not_lt h)]
    rfl

/-- GETFRV looks its index up in the table of full ranges (R166). -/
theorem exec_getfrv : exec (.getfrv g) s =
    .next (respondTable [6144, 4096, 2048, 1024, 512, 256][g.toNat]? s) := by
  rw [← fullRangeMV_eq_getElem?]
  rfl

/-- GETRES looks its index up in the table of LSBs (R167). -/
theorem exec_getres : exec (.getres g) s =
    .next (respondTable [3000, 2000, 1000, 500, 250, 125][g.toNat]? s) := by
  rw [← lsbUV_eq_getElem?]
  rfl

/-- No LSB is wider than that of the widest range (R161). -/
theorem lsbUV_le (h : lsbUV g = some lsb) : lsb ≤ 3000 := by
  have key : ∀ g : BitVec 3, ∀ lsb ∈ lsbUV g, lsb ≤ 3000 := by decide
  exact key g lsb h

/-! ## The scaler -/

/-- A product of a code and an LSB stays within the widest range (R163). -/
theorem code_mul_lsb_bounds {c : Int} (hlow : -2048 ≤ c) (hhigh : c ≤ 2047) (hlsb : lsb ≤ 3000) :
    -6144000 ≤ c * lsb ∧ c * lsb ≤ 6141000 := by
  have hmin : -2048 * (lsb : Int) ≤ c * lsb := Int.mul_le_mul_of_nonneg_right hlow (by omega)
  have hmax : c * (lsb : Int) ≤ 2047 * lsb := Int.mul_le_mul_of_nonneg_right hhigh (by omega)
  omega

/-- The scaler is odd: only the least word of sixteen bits has no negative, and it is no code of
twelve bits (R163). -/
theorem scaleUV_neg (hlow : -2048 ≤ code.toInt) (hl : lsbUV g = some lsb) :
    scaleUV (-code) g = some (-(code.toInt * lsb)) := by
  have hne : code ≠ BitVec.intMin 16 := by
    rintro rfl
    exact absurd hlow (by decide)
  rw [scaleUV_eq hl, BitVec.toInt_neg_of_ne_intMin hne, Int.neg_mul]

/-! ## VREAD -/

/-- A scaled read responds the microvolts at the current range, or a free value where the range has
no LSB (R162, R163). -/
theorem finishRead_volt : finishRead .volt (decode12 r) s =
    if (fsrOf s.cfg).toNat ≤ 5 then responded .ok (microvolts (codeOf r) (fsrOf s.cfg)) s
    else responded .ok (Config.undefinedMicrovolts s.frees) { s with frees := s.frees + 1 } := by
  split
  · next hg => exact respondScaled_defined hg
  · next hg => exact respondScaled_undefined (Nat.lt_of_not_le hg)

/-- VREAD of a channel above 3 (R165). -/
theorem exec_vread_rejected (h : 3 < ch.toNat) :
    exec (.vread ch) s = .next (responded .ok 0#32 s) := by
  simp only [exec_eq, autoSlot_eq_none.2 h]
  rfl

/-- VREAD of the other channels is a read of the channel (R165). -/
theorem exec_vread_channel (h : ch.toNat ≤ 3) :
    exec (.vread ch) s = .next (readCh ch .volt s) := by
  have hslot : autoSlot ch = some ⟨ch.toNat, by omega⟩ := dif_pos (by omega)
  simp only [exec_eq, hslot]

/-! ## The statements -/

/-- Settles O33: the trigger, then the run of the polls up to the scaled end of the read, at the
range the trigger left in the cache. -/
theorem singleShotVreadCompletes : Obligations.SingleShotVreadCompletes := by
  intro n ch s hmode hch hrange hnot hready t
  refine ⟨exec_read_singleShot (readPlan_vread hch) hmode, ?_⟩
  have hfsr : fsrOf (pollsAndSample .volt n t).cfg = fsrOf s.cfg := fsrOf_pack
  have hrun := reaches_finishRead (s := t) (k := .volt) rfl hnot hready
  rw [finishRead_volt, hfsr, if_pos hrange, pollsAndSample, pollEvents_triggered] at hrun
  exact hrun

/-- Settles O35: `2047 * Lsb_uV` is what the division divides, so it leaves `code * Lsb_uV`. -/
theorem scalerIsExact : Obligations.ScalerIsExact := by
  intro code g hlow hhigh hg
  obtain ⟨lsb, hl⟩ := Option.isSome_iff_exists.1 (lsbUV_isSome.2 hg)
  obtain ⟨fr, hf⟩ : ∃ fr, fullRangeMV g = some fr := ⟨_, if_pos hg⟩
  have hfit := scale_tables_fit hf hl
  obtain ⟨hmin, hmax⟩ := code_mul_lsb_bounds hlow hhigh (lsbUV_le hl)
  refine ⟨fr, lsb, hf, hl, hfit, ?_, scaleUV_eq hl, hmin, hmax, ?_, scaleUV_neg hlow hl⟩
  · rw [hfit]
    exact Dvd.dvd.mul_left (Int.dvd_mul_right 2047 lsb) code.toInt
  · exact BitVec.toInt_ofInt_eq_self (by decide) (by omega) (by omega)

/-- Settles O37: a rejected channel ends at once, and the others end with the scaled sample of
their read, which keeps the range. -/
theorem vreadRespondsMicrovolts : Obligations.VreadRespondsMicrovolts := by
  refine fun ch s => ⟨exec_vread_rejected, ?_⟩
  intro hch hmode t
  have hfsr : fsrOf t.cfg = fsrOf s.cfg := fsrOf_pack
  rw [exec_vread_channel hch, readCh_continuous hmode, finishRead_volt, hfsr]
  rfl

/-- Settles O36: each command responds its table, which ends after the range 5. -/
theorem tableCommandsRespondTheTables : Obligations.TableCommandsRespondTheTables := by
  refine fun g s => ⟨?_, ?_⟩
  · rw [exec_getfrv, respondTable_getElem?]
    rfl
  · rw [exec_getres, respondTable_getElem?]
    rfl

end Sys2Proof.Machine
end

section
/-! SUPPORT. One pass of VREADAR in either mode, and the run of its passes: the proofs of the
statements about auto-ranging (44_autorange.md). -/

namespace Sys2Proof.Machine

variable {s t : State} {i : Fin 4} {mode : BitVec 1} {g gl ch : BitVec 3} {c : Int} {j n : Nat}

/-! ## The comparator on each side of its thresholds (R182) -/

theorem nextIndex_of_high (hc : 1842 ≤ c) (hg : 0 < g.toNat) : nextIndex c g = g - 1#3 := by
  rw [nextIndex, if_neg (by omega), if_pos ⟨hc, hg⟩]

theorem nextIndex_of_low (hc : c ≤ 921) (hg : g.toNat < 5) : nextIndex c g = g + 1#3 :=
  if_pos ⟨hc, hg⟩

/-- From the range 2 on, a range's LSB is half its wider neighbour's, so 1842 LSBs of the one are
921 of the other (R188). -/
theorem microvolts_boundary (hlow : 2 ≤ g.toNat) (hhigh : g.toNat ≤ 5) :
    microvolts 1842 g = microvolts 921 (g - 1#3) := by
  revert g
  decide

/-! ## What a pass takes in each mode -/

/-- The steps of `n` passes. In single-shot mode a pass is the trigger, the poll that finds the
device ready and the sample; in continuous mode it is one step (R181). -/
def passSteps (mode : BitVec 1) (n : Nat) : Nat := if mode = 1#1 then 3 * n else n

/-- The transport reads of `n` passes: the ready poll, in single-shot mode only, and the sample. -/
def passReads (mode : BitVec 1) (n : Nat) : Nat := if mode = 1#1 then 2 * n else n

/-- The code that pass `j` reads. -/
def passCode (mode : BitVec 1) (s : State) (j : Nat) : Int :=
  codeOf (readValueAt s (if mode = 1#1 then 2 * j + 1 else j))

/-- The start bit a pass leaves in the cache: the trigger sets it (42_conversion.md R141). -/
def passStartBit (mode : BitVec 1) (cfg : Half) : BitVec 1 := if mode = 1#1 then 1#1 else osOf cfg

/-- The first poll of each of the passes 0 to `n` finds the device ready; in continuous mode there
are no polls. -/
def readyPolls (mode : BitVec 1) (s : State) (n : Nat) : Prop :=
  mode = 1#1 → ∀ j, j ≤ n → (readValueAt s (2 * j)).getLsbD 15 = true

theorem passStartBit_pack {cfg : Half} {mux fsr dr : BitVec 3} {rsvd : BitVec 5} :
    passStartBit mode (pack (passStartBit mode cfg) mux fsr mode dr rsvd) =
      passStartBit mode cfg := by
  rw [passStartBit, osOf_pack]
  split
  · next h => exact (if_pos h).symm
  · rfl

theorem passSteps_succ : passSteps mode (n + 1) = passSteps mode 1 + passSteps mode n := by
  unfold passSteps
  split <;> omega

theorem passReads_succ : passReads mode (n + 1) = passReads mode 1 + passReads mode n := by
  unfold passReads
  split <;> omega

/-- The code of a pass is in the last of its reads. -/
theorem passCode_eq_of_shift (h : ∀ m, readValueAt t m = readValueAt s (passReads mode 1 + m)) :
    passCode mode t j = passCode mode s (j + 1) := by
  unfold passCode
  rw [h, passReads]
  congr 2
  split <;> omega

theorem readyPolls_of_shift (h : ∀ m, readValueAt t m = readValueAt s (passReads mode 1 + m))
    (hs : readyPolls mode s (n + 1)) : readyPolls mode t n := by
  rintro rfl j hj
  have hindex : passReads 1#1 1 + 2 * j = 2 * (j + 1) := (Nat.add_comm ..).trans rfl
  rw [h, hindex]
  exact hs rfl (j + 1) (by omega)

/-! ## One pass -/

/-- `s` when a pass of slot `i` has read its sample, before the comparator (R181, A1 and A2). -/
def passSample (mode : BitVec 1) (i : Fin 4) (s : State) : State :=
  let m := BitVec.ofNat 3 (i.val + 4)
  let k := Resume.auto i s.ar[i]
  if mode = 1#1 then pollsAndSample k 0 (triggered k m s.ar[i] s)
  else sampled (m != muxOf s.cfg) m s.ar[i] s

/-- `s` after a pass of slot `i`: responded, or at the start of the next pass (R181). -/
def passEnd (mode : BitVec 1) (i : Fin 4) (s : State) : State :=
  finishRead (.auto i s.ar[i]) (decode12 (readValueAt s (if mode = 1#1 then 1 else 0)))
    (passSample mode i s)

theorem passSample_cfg (hm : modeOf s.cfg = mode) : (passSample mode i s).cfg =
    pack (passStartBit mode s.cfg) (BitVec.ofNat 3 (i.val + 4)) s.ar[i] mode (drOf s.cfg)
      (rsvdOf s.cfg) := by
  rcases mode_cases s.cfg with h | h <;> cases h.symm.trans hm <;> rfl

/-- Sampling keeps the indices, the address and the words offered. -/
theorem passSample_frame : (passSample mode i s).ar = s.ar ∧
    (passSample mode i s).addr = s.addr ∧ (passSample mode i s).cmds = s.cmds := by
  unfold passSample
  split <;> exact ⟨rfl, rfl, rfl⟩

theorem passSample_reads : (passSample mode i s).reads = s.reads + passReads mode 1 := by
  unfold passSample passReads
  split <;> rfl

theorem passSample_replies : (passSample mode i s).replies = s.replies.drop (passReads mode 1) := by
  unfold passSample passReads
  split
  · rfl
  · exact List.drop_one.symm

/-- A pass in one equation: the sample, the comparator's index, and the test for another pass
(R181 to R183). -/
theorem passEnd_eq (hg : s.ar[i].toNat ≤ 5) : passEnd mode i s =
    let u : State := { passSample mode i s with
      ar := s.ar.set i.val (nextIndex (passCode mode s 0) s.ar[i]) i.isLt }
    if passCode mode s 0 = 2047 ∧ 0 < s.ar[i].toNat then
      { u with phase := .exec (.start (.vreadar (slotChannel i))) }
    else responded .ok (microvolts (passCode mode s 0) s.ar[i]) u := by
  obtain ⟨har, -, -⟩ := passSample_frame (mode := mode) (i := i) (s := s)
  have hslot : (passSample mode i s).ar[i] = s.ar[i] := by rw [har]
  rw [passEnd, finishRead, finishAuto_eq hslot hg, har]
  rfl

/-- A pass that saturates above the widest range goes to the start of the next (R183). -/
theorem passEnd_phase (hg : s.ar[i].toNat ≤ 5) (hc : passCode mode s 0 = 2047)
    (hpos : 0 < s.ar[i].toNat) :
    (passEnd mode i s).phase = .exec (.start (.vreadar (slotChannel i))) := by
  rw [passEnd_eq hg, if_pos ⟨hc, hpos⟩]

/-- Any other pass responds (R183, R184). -/
theorem passEnd_response (hg : s.ar[i].toNat ≤ 5)
    (h : ¬ (passCode mode s 0 = 2047 ∧ 0 < s.ar[i].toNat)) :
    (passEnd mode i s).phase = .idle ∧ (passEnd mode i s).status = .ok ∧
      (passEnd mode i s).value = microvolts (passCode mode s 0) s.ar[i] := by
  rw [passEnd_eq hg, if_neg h]
  exact ⟨rfl, rfl, rfl⟩

/-- Whichever way a pass ends, the comparator has set the slot's index (R182), and the pass's reads
are used up. -/
theorem passEnd_frame (hg : s.ar[i].toNat ≤ 5) :
    (passEnd mode i s).ar = s.ar.set i.val (nextIndex (passCode mode s 0) s.ar[i]) i.isLt ∧
    (passEnd mode i s).addr = s.addr ∧ (passEnd mode i s).cmds = s.cmds ∧
    (passEnd mode i s).reads = s.reads + passReads mode 1 ∧
    (passEnd mode i s).replies = s.replies.drop (passReads mode 1) := by
  obtain ⟨-, haddr, hcmds⟩ := passSample_frame (mode := mode) (i := i) (s := s)
  rw [passEnd_eq hg]
  simp only
  split <;> exact ⟨rfl, haddr, hcmds, passSample_reads, passSample_replies⟩

theorem passEnd_cfg (hm : modeOf s.cfg = mode) : (passEnd mode i s).cfg =
    pack (passStartBit mode s.cfg) (BitVec.ofNat 3 (i.val + 4)) s.ar[i] mode (drOf s.cfg)
      (rsvdOf s.cfg) := by
  obtain ⟨hcfg, -⟩ := finishRead_frame (.auto i s.ar[i])
    (decode12 (readValueAt s (if mode = 1#1 then 1 else 0))) (passSample mode i s)
  exact hcfg.trans (passSample_cfg hm)

theorem modeOf_passEnd (hm : modeOf s.cfg = mode) : modeOf (passEnd mode i s).cfg = mode := by
  rw [passEnd_cfg hm, modeOf_pack]

/-- The answers to come after a pass. -/
theorem readValueAt_passEnd (hg : s.ar[i].toNat ≤ 5) (m : Nat) :
    readValueAt (passEnd mode i s) m = readValueAt s (passReads mode 1 + m) := by
  obtain ⟨-, -, -, hreads, hreplies⟩ := passEnd_frame (mode := mode) hg
  simp only [readValueAt, replyAt, hreplies, hreads, List.getElem?_drop, Nat.add_assoc]

/-- The slot holds the comparator's index after the pass. -/
theorem passEnd_slot (hg : s.ar[i].toNat ≤ 5) :
    (passEnd mode i s).ar[i] = nextIndex (passCode mode s 0) s.ar[i] := by
  obtain ⟨har, -⟩ := passEnd_frame (mode := mode) hg
  rw [har]
  exact Vector.getElem_set_self i.isLt

/-- VREADAR of a channel above 3 (R181, A0). -/
theorem exec_vreadar_rejected (h : 3 < ch.toNat) :
    exec (.vreadar ch) s = .next (responded .ok 0#32 s) := by
  simp only [exec_eq, autoSlot_eq_none.2 h]
  rfl

/-- In continuous mode the command is one pass. -/
theorem exec_vreadar_continuous (hm : modeOf s.cfg = 0#1) :
    exec (.vreadar (slotChannel i)) s = .next (passEnd 0#1 i s) := by
  rw [exec_vreadar_slot, autoPass_continuous hm, slotChannel_mux]
  rfl

/-- A pass from the start of the command, in either mode. -/
theorem reaches_passEnd (hp : s.phase = .exec (.start (.vreadar (slotChannel i))))
    (hm : modeOf s.cfg = mode) (hready : readyPolls mode s n) :
    Reaches (passSteps mode 1) s (passEnd mode i s) := by
  have hstep := step_start hp
  rcases mode_cases s.cfg with h | h <;> cases h.symm.trans hm
  · exact .one (hstep.trans (exec_vreadar_continuous h))
  · have hpoll : (readValueAt s 0).getLsbD 15 = true := hready rfl 0 n.zero_le
    exact .cons (hstep.trans (exec_read_singleShot (readPlan_vreadar_slot i) h))
      (reaches_finishRead (n := 0) rfl nofun hpoll)

/-! ## The run of the passes -/

/-- VREADAR of slot `i`, started from `s`, ends in `t` with the response of pass `j`, made at index
`gl` after `j` saturated passes (R183, R185). -/
structure EndsAtPass (mode : BitVec 1) (i : Fin 4) (s : State) (j : Nat) (gl : BitVec 3)
    (t : State) : Prop where
  index : j + gl.toNat = s.ar[i].toNat
  run : Reaches (passSteps mode (j + 1)) s t
  phase : t.phase = .idle
  status : t.status = .ok
  saturated : ∀ j', j' < j → passCode mode s j' = 2047
  widest : passCode mode s j = 2047 → gl = 0#3
  value : t.value = microvolts (passCode mode s j) gl
  cfg : t.cfg = pack (passStartBit mode s.cfg) (BitVec.ofNat 3 (i.val + 4)) gl mode (drOf s.cfg)
    (rsvdOf s.cfg)
  ar : t.ar = s.ar.set i.val (nextIndex (passCode mode s j) gl) i.isLt
  reads : t.reads = s.reads + passReads mode (j + 1)
  addr : t.addr = s.addr
  cmds : t.cmds = s.cmds

/-- The command ends at its first pass when that one responds. -/
theorem EndsAtPass.first (hm : modeOf s.cfg = mode) (hg : s.ar[i].toNat ≤ 5)
    (hrun : Reaches (passSteps mode 1) s (passEnd mode i s))
    (h : ¬ (passCode mode s 0 = 2047 ∧ 0 < s.ar[i].toNat)) :
    EndsAtPass mode i s 0 s.ar[i] (passEnd mode i s) := by
  obtain ⟨har, haddr, hcmds, hreads, -⟩ := passEnd_frame (mode := mode) hg
  obtain ⟨hphase, hstatus, hvalue⟩ := passEnd_response hg h
  have hwidest : passCode mode s 0 = 2047 → s.ar[i] = 0#3 := fun hc =>
    BitVec.eq_of_toNat_eq (Nat.eq_zero_of_not_pos fun hpos => h ⟨hc, hpos⟩)
  exact ⟨Nat.zero_add _, hrun, hphase, hstatus, nofun, hwidest, hvalue, passEnd_cfg hm, har,
    hreads, haddr, hcmds⟩

/-- A saturated pass widens the slot's range by one (R182). -/
theorem passEnd_slot_toNat (hg : s.ar[i].toNat ≤ 5) (hc : passCode mode s 0 = 2047)
    (hpos : 0 < s.ar[i].toNat) : (passEnd mode i s).ar[i].toNat = s.ar[i].toNat - 1 := by
  rw [passEnd_slot hg, hc, nextIndex_of_high (by decide) hpos, pred_toNat hpos]

/-- A saturated pass comes before the passes of the command started anew. -/
theorem EndsAtPass.cons (hm : modeOf s.cfg = mode) (hg : s.ar[i].toNat ≤ 5)
    (hrun : Reaches (passSteps mode 1) s (passEnd mode i s))
    (hc : passCode mode s 0 = 2047) (hpos : 0 < s.ar[i].toNat)
    (h : EndsAtPass mode i (passEnd mode i s) j gl t) : EndsAtPass mode i s (j + 1) gl t := by
  obtain ⟨har, haddr, hcmds, hreads, -⟩ := passEnd_frame (mode := mode) hg
  have hcode : ∀ j, passCode mode (passEnd mode i s) j = passCode mode s (j + 1) := fun _ =>
    passCode_eq_of_shift (readValueAt_passEnd hg)
  have hindex := h.index
  rw [passEnd_slot_toNat hg hc hpos] at hindex
  have hsaturated : ∀ j', j' < j + 1 → passCode mode s j' = 2047
    | 0, _ => hc
    | j' + 1, hj => hcode j' ▸ h.saturated j' (by omega)
  have hcfg := h.cfg
  rw [passEnd_cfg hm, passStartBit_pack, drOf_pack, rsvdOf_pack] at hcfg
  have hart := h.ar
  rw [har, Vector.set_set, hcode] at hart
  have hreadst := h.reads
  rw [hreads, Nat.add_assoc, ← passReads_succ] at hreadst
  exact ⟨by omega, passSteps_succ ▸ hrun.trans h.run, h.phase, h.status, hsaturated,
    hcode j ▸ h.widest, hcode j ▸ h.value, hcfg, hart, hreadst, h.addr.trans haddr,
    h.cmds.trans hcmds⟩

/-- From an index in 0..5 the command ends, since each saturated pass widens the range (R185). -/
theorem exists_endsAtPass (hp : s.phase = .exec (.start (.vreadar (slotChannel i))))
    (hm : modeOf s.cfg = mode) (hg : s.ar[i].toNat ≤ 5)
    (hready : readyPolls mode s s.ar[i].toNat) : ∃ j gl t, EndsAtPass mode i s j gl t := by
  induction hn : s.ar[i].toNat generalizing s with
  | zero => exact ⟨_, _, _, .first hm hg (reaches_passEnd hp hm hready) (by omega)⟩
  | succ n ih =>
    have hrun := reaches_passEnd hp hm hready
    have hpos : 0 < s.ar[i].toNat := by omega
    by_cases hc : passCode mode s 0 = 2047
    · have hslot : (passEnd mode i s).ar[i].toNat = n := by
        rw [passEnd_slot_toNat hg hc hpos, hn, Nat.add_sub_cancel]
      rw [hn] at hready
      obtain ⟨j, gl, t, h⟩ := ih (passEnd_phase hg hc hpos) (modeOf_passEnd hm) (by omega)
        (hslot.symm ▸ readyPolls_of_shift (readValueAt_passEnd hg) hready) hslot
      exact ⟨j + 1, gl, t, .cons hm hg hrun hc hpos h⟩
    · exact ⟨_, _, _, .first hm hg hrun fun hsat => hc hsat.1⟩

/-! ## The statements -/

/-- Settles O39: a channel above 3 has no slot, and any other's command is one pass. -/
theorem vreadarPassInContinuousMode : Obligations.VreadarPassInContinuousMode := fun _ =>
  ⟨fun _ => exec_vreadar_rejected, fun _ hm hg =>
    (exec_vreadar_continuous hm).trans (congrArg _ (passEnd_eq hg))⟩

/-- Settles O40: the run of the passes, where a pass is three steps and two reads. -/
theorem vreadarTerminatesInSingleShotMode : Obligations.VreadarTerminatesInSingleShotMode := by
  intro i s hp hm hg hready
  obtain ⟨j, gl, t, h⟩ := exists_endsAtPass hp hm hg fun _ => hready
  exact ⟨j, gl, t, h.index, h.run, h.phase, h.status, h.saturated, h.widest, h.value, h.cfg, h.ar,
    h.reads, h.addr, h.cmds⟩

/-- Settles O41: the same run, where a pass is one step and one read. -/
theorem vreadarTerminatesInContinuousMode : Obligations.VreadarTerminatesInContinuousMode := by
  intro i s hp hm hg
  obtain ⟨j, gl, t, h⟩ := exists_endsAtPass hp hm hg nofun
  exact ⟨j, gl, t, h.index, h.run, h.phase, h.status, h.saturated, h.widest, h.value, h.cfg, h.ar,
    h.reads, h.addr, h.cmds⟩

/-- Settles O42: at 1842 the pass responds and the index falls to `g - 1`, and there 921 brings it
back to `g`. -/
theorem boundaryInputAlternatesTheIndex : Obligations.BoundaryInputAlternatesTheIndex := by
  intro i s hm hlow hhigh hfirst hsecond
  set t := passEnd 0#1 i s
  have hcodet : passCode 0#1 s 0 = 1842 := hfirst
  have hcodeu : passCode 0#1 t 0 = 921 :=
    (passCode_eq_of_shift (readValueAt_passEnd hhigh)).trans hsecond
  have hslot : t.ar[i] = s.ar[i] - 1#3 := by
    rw [passEnd_slot hhigh, hcodet, nextIndex_of_high (by decide) (by omega)]
  have hpred : t.ar[i].toNat = s.ar[i].toNat - 1 := by rw [hslot, pred_toNat (by omega)]
  have hgt : t.ar[i].toNat ≤ 5 := by omega
  obtain ⟨hart, -⟩ := passEnd_frame (mode := 0#1) hhigh
  obtain ⟨haru, -⟩ := passEnd_frame (mode := 0#1) hgt
  obtain ⟨hphaset, -, hvaluet⟩ := passEnd_response (mode := 0#1) hhigh (by omega)
  obtain ⟨hphaseu, -, hvalueu⟩ := passEnd_response (mode := 0#1) hgt (by omega)
  refine ⟨t, passEnd 0#1 i t, exec_vreadar_continuous hm,
    exec_vreadar_continuous (modeOf_passEnd hm), hphaset, hphaseu, hslot, ?_, ?_⟩
  · rw [haru, hcodeu, nextIndex_of_low (by decide) (by omega), hslot, BitVec.sub_add_cancel,
      hart, Vector.set_set]
    exact Vector.set_getElem_self i.isLt
  · rw [hvaluet, hvalueu, hcodet, hcodeu, hslot, microvolts_boundary hlow hhigh]

end Sys2Proof.Machine
end

section
/-! SUPPORT. Nothing stops the block: the proof of the statement about errors
(60_exceptions.md). -/

namespace Sys2Proof.Machine

theorem exec_answers (i : Instr) (s : State) : ∃ t, exec i s = .next t := ⟨_, exec_eq i s⟩

/-- Where no command is started the step's own equation gives the next state; where one is, the
command answers it. -/
theorem step_answers (s : State) : ∃ t, step s = .next t := by
  cases hp : s.phase with
  | idle =>
    cases hc : s.cmds with
    | nil => exact ⟨_, step_wait hp hc⟩
    | cons c rest =>
      cases hd : decode c with
      | error r => exact ⟨_, step_illegal hp hc hd⟩
      | ok i => exact step_command hp hc hd ▸ exec_answers i _
  | exec p =>
    cases p with
    | start i => exact step_start hp ▸ exec_answers i s
    | readBack => exact ⟨_, step_readBack hp⟩
    | readConv k => exact ⟨_, step_readConv hp⟩
  | settle => exact ⟨_, step_settle hp⟩
  | poll k => exact ⟨_, step_poll hp⟩
  | pollWait k => exact ⟨_, step_pollWait hp⟩

/-- Settles O8: every command and every phase has an equation that ends in a next state. -/
theorem noStepStops : Obligations.NoStepStops := ⟨exec_answers, step_answers⟩

end Sys2Proof.Machine
end

section
/-! SUPPORT. The idle wait, the write that SETMODE never skips, and the comparator below its low
threshold: the proofs of the statements about reset and hazards (70_reset_and_hazards.md). -/

namespace Sys2Proof.Machine

variable {s : State} {g : BitVec 3} {c : Int}

/-- Setting the mode it has writes the cache all the same: SETMODE has no no-op test (R227,
41_controller_setup.md R126). -/
theorem setMode_self : setMode (modeOf s.cfg) true s = writeCfg s := by
  rw [setMode, setField_mode, pack_fields]
  rfl

/-- An index below 5 has a narrower neighbour (43_voltage_scaler.md R164 (e)). -/
theorem succ_toNat (h : g.toNat < 5) : (g + 1#3).toNat = g.toNat + 1 := by
  revert g
  decide

/-- Below the low threshold the index moves one range narrower, and stays at the narrowest
(44_autorange.md R182). -/
theorem nextIndex_toNat_of_low (hc : c ≤ 921) (hg : g.toNat ≤ 5) :
    (nextIndex c g).toNat = min 5 (g.toNat + 1) := by
  by_cases h : g.toNat < 5
  · rw [nextIndex_of_low hc h, succ_toNat h]
    omega
  · rw [nextIndex, if_neg (by omega), if_neg (by omega)]
    omega

/-! ## The statements -/

/-- Settles O7: the wait is the step's first equation. -/
theorem idleBlockWaitsForAWord : Obligations.IdleBlockWaitsForAWord := fun _ => step_wait

/-- Settles O27: the cache already holds the range, so repeating SETFSR does nothing, and SETMODE
sends the cache. -/
theorem pendingChangeNeedsAnotherWrite : Obligations.PendingChangeNeedsAnotherWrite := by
  intro g s
  have hset : fsrOf (responded .ok 0#32 (setFsr g false s)).cfg = g := fsrOf_setFsr
  refine ⟨_, _, _, exec_setfsr, exec_setfsr, ?_, exec_setmode, ?_⟩
  · rw [setFsr_of_fsr_eq hset, setFsr_deferred]
    rfl
  · rw [setMode_self]
    exact ⟨rfl, fsrOf_setFsr, cacheSent_of_write rfl⟩

/-- Settles O43: a negative code is below the low threshold and is not saturated, so the one pass
responds. -/
theorem negativeInputNarrowsTheRange : Obligations.NegativeInputNarrowsTheRange := by
  intro i s hm hg hneg
  have hcode : passCode 0#1 s 0 < 0 := hneg
  obtain ⟨hphase, hstatus, hvalue⟩ := passEnd_response (mode := 0#1) hg (by omega)
  obtain ⟨har, -, -, hreads, -⟩ := passEnd_frame (mode := 0#1) hg
  refine ⟨passEnd 0#1 i s, exec_vreadar_continuous hm, hphase, hstatus, hreads, ?_,
    fun j hj => ?_, hvalue⟩
  · rw [passEnd_slot hg, nextIndex_toNat_of_low (by omega) hg]
  · rw [har]
    exact Vector.getElem_set_ne _ _ fun h => hj (Fin.ext h.symm)

end Sys2Proof.Machine
end
